-- ==== Sys2Proof/Word.lean ====
section
/-! DEFINITION. The word types of the cobble core (00_scope.md rules R4 and R6) and the operand of an abstract instruction
(30_encoding.md rule R45). -/

namespace Sys2Proof

/-- A register value, an ALU result, an 8-bit immediate: `XLEN = 8` (R4). -/
abbrev Byte := BitVec 8

/-- One instruction word: `ILEN = 24` (R4). Bit 0 is the least significant bit (R6). -/
abbrev Word24 := BitVec 24

/-- The program counter and an instruction address: `PCW = 16` (R4). -/
abbrev Addr := BitVec 16

/-- A register that exists: one of `NREG = 16` indices (R4, R15). -/
abbrev RegIndex := BitVec 4

/-- An operand slot of an abstract instruction (R45). The carriers are wider than the valid ranges where the rule says so:
a register index is carried in 8 bits and a 12-bit immediate in 16. -/
inductive Operand where
  /-- A register index 0 to 255, of which 0 to 15 name registers. -/
  | reg (index : Byte)
  /-- An 8-bit immediate, always in range. -/
  | imm8 (value : Byte)
  /-- A 12-bit immediate in a 16-bit carrier, of which 0 to 4095 are valid. -/
  | imm12 (value : BitVec 16)
  /-- A branch target that is not resolved yet. -/
  | label (name : String)
deriving DecidableEq, Repr

end Sys2Proof
end

