-- ==== Sys2Proof/Config.lean ====
section
/-! DEFINITION. What the spec leaves to whoever runs the core (00_scope.md rule R5): the type of the opcode map `OPMAP`
(decision D1), the mnemonics it maps, the byte order of a program file (`WORD_FILE_ENDIAN`, decision D5), and the largest
`PROG_LEN`. The default opcode map stands in Decode.lean. No value of the spec is free
(93_implementation_defined.md section 1), so there is no opaque constant. -/

namespace Sys2Proof

/-- The sixteen executable instructions (00_scope.md rule R1). -/
inductive Mnemonic where
  | halt | nop | mv | not | add | sub | and | or | xor | addi | andi | ori | xori | jmp | bz | bnz
deriving DecidableEq, Repr

/-- The five word formats (30_encoding.md rule R48). -/
inductive Format where
  /-- no operand -/
  | n
  /-- two registers -/
  | rr
  /-- three registers -/
  | rrr
  /-- two registers and an 8-bit immediate -/
  | i
  /-- a 12-bit immediate -/
  | j
deriving DecidableEq, Repr

/-- The pair that selects an instruction (30_encoding.md rule R51). -/
structure OpCode where
  opcode : BitVec 6
  funct  : BitVec 2
deriving DecidableEq, Repr

/-- `OPMAP`: a pair for each mnemonic (00_scope.md rule R5, decision D1). -/
structure OpMap where
  code : Mnemonic → OpCode

/-- The condition rule R5 puts on `OPMAP`: no two mnemonics have one pair. -/
def OpMap.Injective (om : OpMap) : Prop :=
  ∀ m n : Mnemonic, om.code m = om.code n → m = n

/-- The order of a container's four bytes in a program file (20_memory.md rule R33, decision D5). -/
inductive Endian where
  /-- least significant byte first: the spec's default -/
  | little
  /-- most significant byte first -/
  | big
deriving DecidableEq, Repr

/-- The largest `PROG_LEN` (00_scope.md rule R5; 20_memory.md rule R31). -/
def Config.maxProgLen : Nat := 65536

end Sys2Proof
end

