-- ==== Sys2Proof/Syntax.lean ====
section
/-! DEFINITION. The abstract instructions of the machine: the sixteen executable variants of 30_encoding.md rule R45, one
constructor for each row of spec/opcode_table.json. A slot holds any operand, as the rule says; WellFormed.lean says which
are in shape. The seventeenth variant, the pseudo-instruction `Label`, is no instruction of the machine (rule R112) and
stands in Machine/Source.lean. -/

namespace Sys2Proof

/-- An instruction with its operand slots, destination first (R45, R76). -/
inductive Instr where
  | halt
  | nop
  | mv (rd rs1 : Operand)
  | not (rd rs1 : Operand)
  | add (rd rs1 rs2 : Operand)
  | sub (rd rs1 rs2 : Operand)
  | and (rd rs1 rs2 : Operand)
  | or (rd rs1 rs2 : Operand)
  | xor (rd rs1 rs2 : Operand)
  | addi (rd rs1 imm : Operand)
  | andi (rd rs1 imm : Operand)
  | ori (rd rs1 imm : Operand)
  | xori (rd rs1 imm : Operand)
  | jmp (imm : Operand)
  | bz (imm : Operand)
  | bnz (imm : Operand)
deriving DecidableEq, Repr

/-- The instruction's mnemonic. -/
def Instr.mnemonic : Instr → Mnemonic
  | .halt => .halt
  | .nop => .nop
  | .mv _ _ => .mv
  | .not _ _ => .not
  | .add _ _ _ => .add
  | .sub _ _ _ => .sub
  | .and _ _ _ => .and
  | .or _ _ _ => .or
  | .xor _ _ _ => .xor
  | .addi _ _ _ => .addi
  | .andi _ _ _ => .andi
  | .ori _ _ _ => .ori
  | .xori _ _ _ => .xori
  | .jmp _ => .jmp
  | .bz _ => .bz
  | .bnz _ => .bnz

/-- The instruction's operand slots, destination first. -/
def Instr.operands : Instr → List Operand
  | .halt | .nop => []
  | .mv d a | .not d a => [d, a]
  | .add d a b | .sub d a b | .and d a b | .or d a b | .xor d a b => [d, a, b]
  | .addi d a k | .andi d a k | .ori d a k | .xori d a k => [d, a, k]
  | .jmp t | .bz t | .bnz t => [t]

end Sys2Proof
end

