-- ==== Sys2Proof/WellFormed.lean ====
section
/-! DEFINITION. Well-shaped and well-formed instructions (30_encoding.md rule R45): every slot of the required kind, every
register index at most 15, every 12-bit immediate at most 4095. -/

namespace Sys2Proof

/-- The slot holds a register. -/
def Operand.isReg : Operand → Bool
  | .reg _ => true
  | _ => false

/-- The slot holds an 8-bit immediate. -/
def Operand.isImm8 : Operand → Bool
  | .imm8 _ => true
  | _ => false

/-- The slot holds a 12-bit immediate. -/
def Operand.isImm12 : Operand → Bool
  | .imm12 _ => true
  | _ => false

/-- The value the slot carries is in its range: a register index at most 15, a 12-bit immediate at most 4095. -/
def Operand.inRange : Operand → Bool
  | .reg n => decide (n.toNat ≤ 15)
  | .imm8 _ => true
  | .imm12 t => decide (t.toNat ≤ 4095)
  | .label _ => false

/-- Every slot holds the required variant (the table of R45). -/
def Instr.wellShaped : Instr → Bool
  | .halt | .nop => true
  | .mv d a | .not d a => d.isReg && a.isReg
  | .add d a b | .sub d a b | .and d a b | .or d a b | .xor d a b => d.isReg && a.isReg && b.isReg
  | .addi d a k | .andi d a k | .ori d a k | .xori d a k => d.isReg && a.isReg && k.isImm8
  | .jmp t | .bz t | .bnz t => t.isImm12

/-- Well-shaped, and every value in range (R45). -/
def Instr.wellFormed (i : Instr) : Bool :=
  i.wellShaped && i.operands.all Operand.inRange

end Sys2Proof
end

