-- ==== Sys2Proof/Decode.lean ====
section
/-! DEFINITION. The decoder, total on 24-bit words, and after it the encoder, both for any opcode map and for the default
one (30_encoding.md rules R47 to R65; 70_reset_and_hazards.md rule R192). -/

namespace Sys2Proof

/-! ## The opcode map -/

/-- Every mnemonic, in the order of the table of rule R52. -/
def Mnemonic.all : List Mnemonic :=
  [.halt, .nop, .mv, .not, .add, .sub, .and, .or, .xor, .addi, .andi, .ori, .xori, .jmp, .bz, .bnz]

/-- The word format of a mnemonic (R48). -/
def Mnemonic.format : Mnemonic → Format
  | .halt | .nop => .n
  | .mv | .not => .rr
  | .add | .sub | .and | .or | .xor => .rrr
  | .addi | .andi | .ori | .xori => .i
  | .jmp | .bz | .bnz => .j

/-- The default `OPMAP` (R52, the spec's decision D1; UNVERIFIED against the source, which gives no numbers: log entry 5,
unsafe for a claim about words). -/
def OpMap.default : OpMap where
  code
    | .halt => ⟨0x00, 0⟩
    | .nop => ⟨0x01, 0⟩
    | .mv => ⟨0x02, 0⟩
    | .not => ⟨0x03, 0⟩
    | .add => ⟨0x04, 0⟩
    | .sub => ⟨0x05, 0⟩
    | .and => ⟨0x06, 0⟩
    | .or => ⟨0x07, 0⟩
    | .xor => ⟨0x08, 0⟩
    | .addi => ⟨0x04, 1⟩
    | .andi => ⟨0x06, 1⟩
    | .ori => ⟨0x07, 1⟩
    | .xori => ⟨0x08, 1⟩
    | .jmp => ⟨0x09, 2⟩
    | .bz => ⟨0x0A, 2⟩
    | .bnz => ⟨0x0B, 2⟩

/-- The `match` column of the table of rule R52: what the fixed bits of a row's words are. -/
def Mnemonic.rowMatch : Mnemonic → Word24
  | .halt => 0x000000
  | .nop => 0x000001
  | .mv => 0x000002
  | .not => 0x000003
  | .add => 0x000004
  | .sub => 0x000005
  | .and => 0x000006
  | .or => 0x000007
  | .xor => 0x000008
  | .addi => 0x000044
  | .andi => 0x000046
  | .ori => 0x000047
  | .xori => 0x000048
  | .jmp => 0x000089
  | .bz => 0x00008A
  | .bnz => 0x00008B

/-- The `mask` column of the table of rule R52: which bits of a row's words are fixed. -/
def Mnemonic.rowMask : Mnemonic → Word24
  | .halt | .nop => 0xFFFFFF
  | .mv | .not => 0xFF00FF
  | .add | .sub | .and | .or | .xor => 0xF000FF
  | .addi | .andi | .ori | .xori => 0x0000FF
  | .jmp | .bz | .bnz => 0x000FFF

/-- `OPMAP_inverse` (R63): the mnemonic a pair selects, if any. -/
def OpMap.inverse (om : OpMap) (c : OpCode) : Option Mnemonic :=
  Mnemonic.all.find? (fun m => decide (om.code m = c))

/-! ## Fields of a word -/

/-- `w[lo+width-1 : lo]` (R6). -/
def field (w : Word24) (lo width : Nat) : BitVec width :=
  w.extractLsb' lo width

/-- The `opcode` and `funct` fields, bits 5:0 and 7:6 (R47). -/
def opcodeField (w : Word24) : OpCode :=
  ⟨field w 0 6, field w 6 2⟩

/-- `rd = w[11:8]` (R50). -/
def rdOperand (w : Word24) : Operand :=
  .reg ((field w 8 4).setWidth 8)

/-- `rs1 = w[15:12]` (R50). -/
def rs1Operand (w : Word24) : Operand :=
  .reg ((field w 12 4).setWidth 8)

/-- `rs2 = w[19:16]` (R50). -/
def rs2Operand (w : Word24) : Operand :=
  .reg ((field w 16 4).setWidth 8)

/-- `imm8 = w[23:16]` (R49). -/
def imm8Operand (w : Word24) : Operand :=
  .imm8 (field w 16 8)

/-- `imm12 = w[23:12]`, zero-extended into its carrier (R49). -/
def imm12Operand (w : Word24) : Operand :=
  .imm12 ((field w 12 12).setWidth 16)

/-- The bits that belong to no live field of the format are all zero (R53). -/
def unusedBitsZero (f : Format) (w : Word24) : Bool :=
  match f with
  | .n => decide (field w 8 16 = 0)
  | .rr => decide (field w 16 8 = 0)
  | .rrr => decide (field w 20 4 = 0)
  | .i => true
  | .j => decide (field w 8 4 = 0)

/-! ## The decoder -/

/-- What `decode` gives: an instruction, or `Illegal(w)` (R62). -/
inductive Decoded where
  | instr (i : Instr)
  /-- The word matches no row of the opcode map (R65). -/
  | illegal (w : Word24)
deriving DecidableEq, Repr

/-- The instruction a mnemonic and the live fields of a word make (R63). -/
def instrOfFields (m : Mnemonic) (w : Word24) : Instr :=
  match m with
  | .halt => .halt
  | .nop => .nop
  | .mv => .mv (rdOperand w) (rs1Operand w)
  | .not => .not (rdOperand w) (rs1Operand w)
  | .add => .add (rdOperand w) (rs1Operand w) (rs2Operand w)
  | .sub => .sub (rdOperand w) (rs1Operand w) (rs2Operand w)
  | .and => .and (rdOperand w) (rs1Operand w) (rs2Operand w)
  | .or => .or (rdOperand w) (rs1Operand w) (rs2Operand w)
  | .xor => .xor (rdOperand w) (rs1Operand w) (rs2Operand w)
  | .addi => .addi (rdOperand w) (rs1Operand w) (imm8Operand w)
  | .andi => .andi (rdOperand w) (rs1Operand w) (imm8Operand w)
  | .ori => .ori (rdOperand w) (rs1Operand w) (imm8Operand w)
  | .xori => .xori (rdOperand w) (rs1Operand w) (imm8Operand w)
  | .jmp => .jmp (imm12Operand w)
  | .bz => .bz (imm12Operand w)
  | .bnz => .bnz (imm12Operand w)

/-- The decoder for any opcode map (R63). -/
def decodeWith (om : OpMap) (w : Word24) : Decoded :=
  match om.inverse (opcodeField w) with
  | none => .illegal w
  | some m => if unusedBitsZero m.format w then .instr (instrOfFields m w) else .illegal w

/-- The decoder with the default opcode map (R52, R63). -/
def decode (w : Word24) : Decoded :=
  decodeWith OpMap.default w

/-- The host's question: the instruction whose bits are `w`, numbered as spec/opcode_table.json numbers them. A value that
does not fit 24 bits is no word of this hardware (R46) and gives none. -/
def decodeTableWord (nbits w : Nat) : Option Instr :=
  if w % 2 ^ nbits < 2 ^ 24 then
    match decode (BitVec.ofNat 24 (w % 2 ^ nbits)) with
    | .instr i => some i
    | .illegal _ => none
  else none

/-! ## The encoder -/

/-- The encoder's errors (R57 to R60; 60_exceptions.md rule R164). They touch no machine state. -/
inductive EncodeError where
  /-- The variant is the pseudo-instruction `Label` (R58). -/
  | labelNotResolved
  /-- A slot holds the wrong kind of operand (R57). -/
  | invalidOperand
  /-- A value does not fit its field (R59, R60). -/
  | overflow
  /-- The source's error for an unimplemented variant; it has no instance here (R58, decision D19). -/
  | unknownInstruction
deriving DecidableEq, Repr

/-- `set_field` (R54): check that the value fits, mask out exactly the field's bits, put the value in. -/
def setField (w : Word24) (lo width v : Nat) : Except EncodeError Word24 :=
  if 2 ^ width ≤ v then .error .overflow
  else .ok ((w &&& ~~~(BitVec.ofNat 24 ((2 ^ width - 1) <<< lo))) ||| BitVec.ofNat 24 (v <<< lo))

/-- Set several fields (position, width, value) in order; the first that does not fit is the error (R61). -/
def setFields (w : Word24) : List (Nat × Nat × Nat) → Except EncodeError Word24
  | [] => .ok w
  | (lo, width, v) :: rest =>
    match setField w lo width v with
    | .ok w' => setFields w' rest
    | .error e => .error e

/-- The live operand fields of a format, in the order their ranges are checked: `rd`, `rs1`, `rs2` or the immediate
(R47, R61). -/
def operandFields (f : Format) (rd rs1 rs2 imm8 : Byte) (imm12 : BitVec 16) : List (Nat × Nat × Nat) :=
  match f with
  | .n => []
  | .rr => [(8, 4, rd.toNat), (12, 4, rs1.toNat)]
  | .rrr => [(8, 4, rd.toNat), (12, 4, rs1.toNat), (16, 4, rs2.toNat)]
  | .i => [(8, 4, rd.toNat), (12, 4, rs1.toNat), (16, 8, imm8.toNat)]
  | .j => [(12, 12, imm12.toNat)]

/-- The encoder as a combinational block (70_reset_and_hazards.md rule R192): a mnemonic and operand carriers in, a word or
an error out. The carriers have the widths of rule R45 (DESIGN CHOICE: R192 names the inputs without widths: log entry 14). -/
def encodeBlock (om : OpMap) (m : Mnemonic) (rd rs1 rs2 imm8 : Byte) (imm12 : BitVec 16) : Except EncodeError Word24 :=
  setFields 0 ((0, 6, (om.code m).opcode.toNat) :: (6, 2, (om.code m).funct.toNat)
    :: operandFields m.format rd rs1 rs2 imm8 imm12)

/-- Encode a format RR instruction from its slots (R55, R57). -/
def encodeRR (om : OpMap) (m : Mnemonic) (rd rs1 : Operand) : Except EncodeError Word24 :=
  match rd, rs1 with
  | .reg d, .reg a => encodeBlock om m d a 0 0 0
  | _, _ => .error .invalidOperand

/-- Encode a format RRR instruction from its slots (R55, R57). -/
def encodeRRR (om : OpMap) (m : Mnemonic) (rd rs1 rs2 : Operand) : Except EncodeError Word24 :=
  match rd, rs1, rs2 with
  | .reg d, .reg a, .reg b => encodeBlock om m d a b 0 0
  | _, _, _ => .error .invalidOperand

/-- Encode a format I instruction from its slots (R55, R57). -/
def encodeI (om : OpMap) (m : Mnemonic) (rd rs1 imm : Operand) : Except EncodeError Word24 :=
  match rd, rs1, imm with
  | .reg d, .reg a, .imm8 k => encodeBlock om m d a 0 k 0
  | _, _, _ => .error .invalidOperand

/-- Encode a format J instruction from its slot (R55, R57). -/
def encodeJ (om : OpMap) (m : Mnemonic) (imm : Operand) : Except EncodeError Word24 :=
  match imm with
  | .imm12 t => encodeBlock om m 0 0 0 0 t
  | _ => .error .invalidOperand

/-- The encoder for any opcode map (R55). -/
def encodeWith (om : OpMap) : Instr → Except EncodeError Word24
  | .halt => encodeBlock om .halt 0 0 0 0 0
  | .nop => encodeBlock om .nop 0 0 0 0 0
  | .mv d a => encodeRR om .mv d a
  | .not d a => encodeRR om .not d a
  | .add d a b => encodeRRR om .add d a b
  | .sub d a b => encodeRRR om .sub d a b
  | .and d a b => encodeRRR om .and d a b
  | .or d a b => encodeRRR om .or d a b
  | .xor d a b => encodeRRR om .xor d a b
  | .addi d a k => encodeI om .addi d a k
  | .andi d a k => encodeI om .andi d a k
  | .ori d a k => encodeI om .ori d a k
  | .xori d a k => encodeI om .xori d a k
  | .jmp t => encodeJ om .jmp t
  | .bz t => encodeJ om .bz t
  | .bnz t => encodeJ om .bnz t

/-- The encoder with the default opcode map. -/
def encode (i : Instr) : Except EncodeError Word24 :=
  encodeWith OpMap.default i

/-- `encode_program` on a resolved program (R56): every instruction on its own, in order; the first error, if any. -/
def encodeProgramWith (om : OpMap) : List Instr → Except EncodeError (List Word24)
  | [] => .ok []
  | i :: rest =>
    match encodeWith om i with
    | .error e => .error e
    | .ok w =>
      match encodeProgramWith om rest with
      | .error e => .error e
      | .ok ws => .ok (w :: ws)

/-- `encode_program` with the default opcode map. -/
def encodeProgram (p : List Instr) : Except EncodeError (List Word24) :=
  encodeProgramWith OpMap.default p

end Sys2Proof
end

