-- ==== Sys2Proof/Machine/State.lean ====
section
/-! DEFINITION. The machine state as plain data (10_state.md rules R10 to R24), the reasons a step can stop, and the state
right after reset (R22). -/

namespace Sys2Proof.Machine

/-- The five kinds of fault (60_exceptions.md rule R150). Taking a fault is a NEXT state whose `STATUS` records it
(R152); no step ends in the host's fault outcome (log entry 6). -/
inductive Fault where
  /-- Code 1. Raised by the eleven instructions with register operands, for an index above 15 (R153). Safe: the source's own
  behaviour, and no fetched word reaches it. -/
  | invalidRegister
  /-- Code 2. Raised by every instruction that has operands, for a slot of the wrong kind or a 12-bit immediate above 4095
  (R154, R91). Safe: no fetched word reaches it. -/
  | invalidOperands
  /-- Code 3. Raised by the step for an illegal word, and for a bare `Label` at the abstract level (R155). Safe: the machine
  stops where a laxer decoder would go on (decisions D2, D4). -/
  | invalidInstruction
  /-- Code 4. Raised by the fetch at an address at or beyond `PROG_LEN` (R156). Safe: the source's own behaviour. -/
  | pcOutOfBounds
  /-- Code 5. Raised by every instruction whose next `pc` is `pc + 1`, at `pc = 0xFFFF` (R157). Safe: the machine stops where
  an implementation might wrap (decision D7). -/
  | pcOverflow
deriving DecidableEq, Repr

/-- Why an instruction would have no meaning in this model. No meaning answers it. -/
inductive Refusal where
  /-- Would be answered by an arm of `exec` whose instruction has no meaning yet; every arm has one. Safe. -/
  | notModelled (mnemonic : String)
deriving DecidableEq, Repr

/-- The flags pair (R19). -/
structure Flags where
  /-- `Z` -/
  zero : Bool
  /-- `V`, the unsigned carry or borrow -/
  overflow : Bool
deriving DecidableEq, Repr

/-- `STATUS` (R18): the only control and status register of the core. -/
inductive Status where
  | running
  | halted
  | faulted (kind : Fault) (info : BitVec 16)
deriving DecidableEq, Repr

/-- The instruction memory as data: (address, word), addresses strictly rising, no word equal to what an unlisted address
below `PROG_LEN` reads as (DESIGN CHOICE, unsafe where nothing was loaded: log entry 2). -/
abbrev Memory := List (Nat × Word24)

/-- The machine state (R10), and the two parameters of a run that the host's step has no other place for (`IMEM` and
`PROG_LEN`, R5; DESIGN CHOICE: log entry 1). -/
structure State where
  /-- `pc` (R11) -/
  pc : Addr
  /-- `x[1]` to `x[15]` in this order (R15); `x[0]` has no storage (R16) -/
  regs : Vector Byte 15
  /-- `Z` and `V` (R19) -/
  flags : Flags
  /-- `STATUS` (R18) -/
  status : Status
  /-- `IMEM` (R30) -/
  imem : Memory
  /-- `PROG_LEN` (R31) -/
  progLen : Nat
deriving DecidableEq, Repr

/-- The reset state (R22) with no program loaded (DESIGN CHOICE for `imem` and `progLen`: log entry 3). -/
def State.reset : State where
  pc := 0
  regs := Vector.replicate 15 0
  flags := ⟨true, false⟩
  status := .running
  imem := []
  progLen := 0

end Sys2Proof.Machine
end

