-- ==== Sys2Proof/Machine/Ops.lean ====
section
/-! DEFINITION. The named operations over the instruction memory and the registers, taking a fault, reset, and the commit of
a step (20_memory.md; 40_execution_cycle.md rules R91, R94, R95, R100; 60_exceptions.md rule R152). -/

namespace Sys2Proof.Machine

/-! ## Instruction memory -/

/-- The word an address below `PROG_LEN` holds when the list names none (DESIGN CHOICE, unsafe where nothing was
loaded: log entry 2). -/
def unlistedWord : Word24 := 0

/-- The word a memory holds at an address. -/
def Memory.read (m : Memory) (a : Nat) : Word24 :=
  match m with
  | [] => unlistedWord
  | (b, w) :: rest => if b = a then w else Memory.read rest a

/-- Put a word at an address, keeping the canonical form. Only the host's load uses it: no instruction writes the
instruction space (R32, R36). -/
def Memory.write (m : Memory) (a : Nat) (w : Word24) : Memory :=
  match m with
  | [] => if w = unlistedWord then [] else [(a, w)]
  | (b, v) :: rest =>
    if a < b then
      if w = unlistedWord then (b, v) :: rest else (a, w) :: (b, v) :: rest
    else if a = b then
      if w = unlistedWord then rest else (a, w) :: rest
    else (b, v) :: Memory.write rest a w

/-- The canonical form: addresses strictly rising, no entry equal to what an unlisted address reads as. -/
def Memory.wf : Memory → Bool
  | [] => true
  | (a, w) :: rest => decide (w ≠ unlistedWord) && rest.all (fun c => decide (a < c.1)) && Memory.wf rest

/-- Every listed address is below a bound. -/
def Memory.below (m : Memory) (n : Nat) : Bool :=
  m.all (fun c => decide (c.1 < n))

/-- The memory that holds the given words at `a`, `a + 1`, and so on. -/
def Memory.ofWords (a : Nat) : List Word24 → Memory
  | [] => []
  | w :: ws =>
    if w = unlistedWord then Memory.ofWords (a + 1) ws else (a, w) :: Memory.ofWords (a + 1) ws

/-- `ImemRead(a)` (R30, R31): the word at an address below `PROG_LEN`; nothing at any other. -/
def imemRead (s : State) (a : Nat) : Option Word24 :=
  if a < s.progLen then some (Memory.read s.imem a) else none

/-- The fetch (R35, R41): the word at `pc`, or none when `pc >= PROG_LEN`. -/
def fetch (s : State) : Option Word24 :=
  imemRead s s.pc.toNat

/-! ## Registers -/

/-- Register read `x[i]` (R94): `x[0]` is 0. -/
def readReg (s : State) (i : RegIndex) : Byte :=
  if h : i = 0 then 0
  else s.regs[i.toNat - 1]'(by have := i.isLt; omega)

/-- Register write `x[i] <- v` (R95): a write to `x[0]` is discarded. -/
def writeReg (s : State) (i : RegIndex) (v : Byte) : State :=
  if h : i = 0 then s
  else { s with regs := s.regs.set (i.toNat - 1) v (by have := i.isLt; omega) }

/-! ## Taking a fault, and reset -/

/-- `raise F(info)` (R152): `STATUS` becomes `Faulted(F, info)` and nothing else changes. There is no return from a fault
(R162): only reset leaves it. -/
def raise (kind : Fault) (info : BitVec 16) (s : State) : State :=
  { s with status := .faulted kind info }

/-- A reset edge (70_reset_and_hazards.md rules R180 to R182): every piece of state at its reset value; the program and its
length, which are parameters, untouched. -/
def resetCore (s : State) : State :=
  { State.reset with imem := s.imem, progLen := s.progLen }

/-! ## The commit of a step -/

/-- The sequential successor (R100): `pc + 1` without wrap-around, none at `0xFFFF`. -/
def seqPc (pc : Addr) : Option Addr :=
  if pc.toNat < 65535 then some (BitVec.ofNat 16 (pc.toNat + 1)) else none

/-- What an instruction says of the next `pc` (R101). -/
inductive NextPc where
  /-- HALT: no next `pc`; the run ends. -/
  | stop
  /-- `pc + 1` -/
  | sequential
  /-- an absolute target -/
  | target (t : Addr)
deriving DecidableEq, Repr

/-- What an instruction computes before anything is committed (R91 step 4): a register write, the flags, the next `pc`. -/
structure Effect where
  write : Option (RegIndex × Byte)
  flags : Flags
  next : NextPc
deriving DecidableEq, Repr

/-- The register and flag part of a commit. -/
def commitData (e : Effect) (s : State) : State :=
  match e.write with
  | none => { s with flags := e.flags }
  | some (d, v) => { writeReg s d v with flags := e.flags }

/-- The commit (R91 steps 5 and 6): `PcOverflow` when the successor does not exist, and then nothing else; otherwise the
register write, the flags, `pc` and (HALT only) `STATUS`, all at once. -/
def commit (e : Effect) (s : State) : State :=
  match e.next with
  | .stop => { commitData e s with status := .halted }
  | .target t => { commitData e s with pc := t }
  | .sequential =>
    match seqPc s.pc with
    | some p => { commitData e s with pc := p }
    | none => raise .pcOverflow s.pc s

end Sys2Proof.Machine
end

