-- ==== Sys2Proof/Machine/Operands.lean ====
section
/-! DEFINITION. The operand checks of the step (40_execution_cycle.md rule R91 checks 2 and 3; 60_exceptions.md rules R153,
R154, R160), one function for each operand form: first the kinds of all slots, then the register indices in the order rs1,
rs2, rd. -/

namespace Sys2Proof.Machine

/-- What an operand check finds wrong. -/
inductive OperandFault where
  /-- A slot of the wrong kind, or a 12-bit immediate above 4095 (check 2). -/
  | wrongShape
  /-- A register index above 15 (check 3). -/
  | badRegister (index : Byte)
deriving DecidableEq, Repr

/-- The register an 8-bit index names, if it names one (10_state.md rule R17). -/
def regIndex (n : Byte) : Except OperandFault RegIndex :=
  if n.toNat ≤ 15 then .ok (n.setWidth 4) else .error (.badRegister n)

/-- Format RR: the registers of `rd` and `rs1`. -/
def operandsRR (rd rs1 : Operand) : Except OperandFault (RegIndex × RegIndex) :=
  match rd, rs1 with
  | .reg d, .reg a =>
    match regIndex a with
    | .error f => .error f
    | .ok a' =>
      match regIndex d with
      | .error f => .error f
      | .ok d' => .ok (d', a')
  | _, _ => .error .wrongShape

/-- Format RRR: the registers of `rd`, `rs1` and `rs2`. -/
def operandsRRR (rd rs1 rs2 : Operand) : Except OperandFault (RegIndex × RegIndex × RegIndex) :=
  match rd, rs1, rs2 with
  | .reg d, .reg a, .reg b =>
    match regIndex a with
    | .error f => .error f
    | .ok a' =>
      match regIndex b with
      | .error f => .error f
      | .ok b' =>
        match regIndex d with
        | .error f => .error f
        | .ok d' => .ok (d', a', b')
  | _, _, _ => .error .wrongShape

/-- Format I: the registers of `rd` and `rs1`, and the 8-bit immediate as it stands (30_encoding.md rule R49). -/
def operandsI (rd rs1 imm : Operand) : Except OperandFault (RegIndex × RegIndex × Byte) :=
  match rd, rs1, imm with
  | .reg d, .reg a, .imm8 k =>
    match regIndex a with
    | .error f => .error f
    | .ok a' =>
      match regIndex d with
      | .error f => .error f
      | .ok d' => .ok (d', a', k)
  | _, _, _ => .error .wrongShape

/-- Format J: the target `zext_16(imm12)` (45_control_transfer.md rules R140, R144); a carrier above 4095 is out of shape. -/
def operandsJ (imm : Operand) : Except OperandFault Addr :=
  match imm with
  | .imm12 t => if t.toNat ≤ 4095 then .ok t else .error .wrongShape
  | _ => .error .wrongShape

/-- Raise the fault a check found, with the payload of 60_exceptions.md rule R151. -/
def raiseOperand (f : OperandFault) (s : State) : State :=
  match f with
  | .wrongShape => raise .invalidOperands s.pc s
  | .badRegister n => raise .invalidRegister (n.setWidth 16) s

end Sys2Proof.Machine
end

