-- ==== Sys2Proof/Machine/Flags.lean ====
section
/-! DEFINITION. The ALU and the flag rule (40_execution_cycle.md rules R97 to R99): operands as numbers, the exact result,
then the narrowing to 8 bits. -/

namespace Sys2Proof.Machine

/-- The operations of the ALU (R98). -/
inductive AluOp where
  | pass | not | add | sub | and | or | xor
deriving DecidableEq, Repr

/-- The outputs of the ALU: the 8-bit result `r` and the bit `c` (R98). -/
structure AluResult where
  r : Byte
  c : Bool
deriving DecidableEq, Repr

/-- The ALU (the table of R98). PASS and NOT do not use `b`. -/
def alu (op : AluOp) (a b : Byte) : AluResult :=
  match op with
  | .pass => ⟨a, false⟩
  | .not => ⟨BitVec.ofNat 8 (255 - a.toNat), false⟩
  | .add => ⟨BitVec.ofNat 8 (a.toNat + b.toNat), decide (a.toNat + b.toNat > 255)⟩
  | .sub => ⟨BitVec.ofNat 8 (a.toNat + 256 - b.toNat), decide (a.toNat < b.toNat)⟩
  | .and => ⟨a &&& b, false⟩
  | .or => ⟨a ||| b, false⟩
  | .xor => ⟨a ^^^ b, false⟩

/-- The flags from the ALU output, never from a read-back of `rd` (R97). -/
def aluFlags (o : AluResult) : Flags :=
  ⟨decide (o.r = 0), o.c⟩

/-- The flags HALT, NOP and JMP leave: zero true, overflow false (10_state.md rule R19). -/
def clearedFlags : Flags := ⟨true, false⟩

end Sys2Proof.Machine
end

