-- ==== Sys2Proof/Machine/Forms.lean ====
section
/-! DEFINITION. The execution of an instruction by its operand form (40_execution_cycle.md rule R91 steps 2 to 6): check the
operands, read the sources, compute, commit. Each meaning in Control, Unary, AluRegister, AluImmediate and Transfer is one
call of these. -/

namespace Sys2Proof.Machine

/-- The answer of a meaning. -/
abbrev Answer := Host.Outcome State Fault Refusal

/-- The effect of an ALU operation: the result to `rd`, the flags from the result, on to `pc + 1` (R97, R98, R101). -/
def aluEffect (op : AluOp) (d : RegIndex) (a b : Byte) : Effect :=
  ⟨some (d, (alu op a b).r), aluFlags (alu op a b), .sequential⟩

/-- A unary instruction, format RR. -/
def runRR (op : AluOp) (rd rs1 : Operand) (s : State) : Answer :=
  match operandsRR rd rs1 with
  | .error f => .next (raiseOperand f s)
  | .ok (d, a) => .next (commit (aluEffect op d (readReg s a) 0) s)

/-- A binary instruction on registers, format RRR. -/
def runRRR (op : AluOp) (rd rs1 rs2 : Operand) (s : State) : Answer :=
  match operandsRRR rd rs1 rs2 with
  | .error f => .next (raiseOperand f s)
  | .ok (d, a, b) => .next (commit (aluEffect op d (readReg s a) (readReg s b)) s)

/-- A binary instruction with an immediate, format I. -/
def runI (op : AluOp) (rd rs1 imm : Operand) (s : State) : Answer :=
  match operandsI rd rs1 imm with
  | .error f => .next (raiseOperand f s)
  | .ok (d, a, k) => .next (commit (aluEffect op d (readReg s a) k) s)

/-- A transfer, format J: the flags it leaves, and whether it is taken (R101). -/
def runJ (imm : Operand) (flags : Flags) (taken : Bool) (s : State) : Answer :=
  match operandsJ imm with
  | .error f => .next (raiseOperand f s)
  | .ok t => .next (commit ⟨none, flags, if taken then .target t else .sequential⟩ s)

end Sys2Proof.Machine
end

