-- ==== Sys2Proof/Machine/AluImmediate.lean ====
section
/-! DEFINITION. The ALU instructions with an 8-bit immediate ADDI, ANDI, ORI, XORI (44_alu_immediate.md rules R130 to R134). -/

namespace Sys2Proof.Machine

/-- ADDI (R130): sum with the unsigned immediate modulo 256; `V` when the sum exceeds 255. -/
def execAddi (rd rs1 imm : Operand) (s : State) : Answer :=
  runI .add rd rs1 imm s

/-- ANDI (R131): bitwise and with the immediate. -/
def execAndi (rd rs1 imm : Operand) (s : State) : Answer :=
  runI .and rd rs1 imm s

/-- ORI (R132): bitwise inclusive or with the immediate. -/
def execOri (rd rs1 imm : Operand) (s : State) : Answer :=
  runI .or rd rs1 imm s

/-- XORI (R133): bitwise exclusive or with the immediate. -/
def execXori (rd rs1 imm : Operand) (s : State) : Answer :=
  runI .xor rd rs1 imm s

end Sys2Proof.Machine
end

