-- ==== Sys2Proof/Machine/AluRegister.lean ====
section
/-! DEFINITION. The binary ALU instructions on registers ADD, SUB, AND, OR, XOR (43_alu_register.md rules R120 to R125). -/

namespace Sys2Proof.Machine

/-- ADD (R120): sum modulo 256; `V` when the sum exceeds 255. -/
def execAdd (rd rs1 rs2 : Operand) (s : State) : Answer :=
  runRRR .add rd rs1 rs2 s

/-- SUB (R121): `rs1` minus `rs2` modulo 256; `V` on an unsigned borrow. -/
def execSub (rd rs1 rs2 : Operand) (s : State) : Answer :=
  runRRR .sub rd rs1 rs2 s

/-- AND (R122): bitwise and; `Z` from the result. -/
def execAnd (rd rs1 rs2 : Operand) (s : State) : Answer :=
  runRRR .and rd rs1 rs2 s

/-- OR (R123): bitwise inclusive or; `Z` from the result. -/
def execOr (rd rs1 rs2 : Operand) (s : State) : Answer :=
  runRRR .or rd rs1 rs2 s

/-- XOR (R124): bitwise exclusive or; `Z` from the result. -/
def execXor (rd rs1 rs2 : Operand) (s : State) : Answer :=
  runRRR .xor rd rs1 rs2 s

end Sys2Proof.Machine
end

