-- ==== Sys2Proof/Machine/Control.lean ====
section
/-! DEFINITION. The control and meta instructions HALT and NOP (41_control_meta.md). -/

namespace Sys2Proof.Machine

/-- HALT (R110): flags reset, `STATUS <- Halted`, `pc` kept. -/
def execHalt (s : State) : Answer :=
  .next (commit ⟨none, clearedFlags, .stop⟩ s)

/-- NOP (R111): flags reset, on to `pc + 1`. -/
def execNop (s : State) : Answer :=
  .next (commit ⟨none, clearedFlags, .sequential⟩ s)

end Sys2Proof.Machine
end

