-- ==== Sys2Proof/Machine/Transfer.lean ====
section
/-! DEFINITION. The control transfers JMP, BZ, BNZ (45_control_transfer.md). A target is not checked when the transfer
executes (R140): the next fetch does that. -/

namespace Sys2Proof.Machine

/-- JMP (R141): flags reset, `pc` becomes the target. -/
def execJmp (imm : Operand) (s : State) : Answer :=
  runJ imm clearedFlags true s

/-- BZ (R142): to the target if `Z = 1`, else on to `pc + 1`; flags kept. -/
def execBz (imm : Operand) (s : State) : Answer :=
  runJ imm s.flags s.flags.zero s

/-- BNZ (R143): to the target if `Z = 0`, else on to `pc + 1`; flags kept. -/
def execBnz (imm : Operand) (s : State) : Answer :=
  runJ imm s.flags (!s.flags.zero) s

end Sys2Proof.Machine
end

