-- ==== Sys2Proof/Machine/Unary.lean ====
section
/-! DEFINITION. The unary register instructions MV and NOT (42_unary.md). -/

namespace Sys2Proof.Machine

/-- MV (R115): copy; `Z` from the value read. -/
def execMv (rd rs1 : Operand) (s : State) : Answer :=
  runRR .pass rd rs1 s

/-- NOT (R116): 8-bit complement; `Z` from the result. -/
def execNot (rd rs1 : Operand) (s : State) : Answer :=
  runRR .not rd rs1 s

end Sys2Proof.Machine
end

