-- ==== Sys2Proof/Machine/Dispatch.lean ====
section
/-! DEFINITION. `exec(i, S)` (40_execution_cycle.md rule R91): one arm per instruction, each one call of its meaning. -/

namespace Sys2Proof.Machine

def exec (i : Instr) (s : State) : Host.Outcome State Fault Refusal :=
  match i with
  | .halt => Sys2Proof.Machine.execHalt s
  | .nop => Sys2Proof.Machine.execNop s
  | .mv rd rs1 => Sys2Proof.Machine.execMv rd rs1 s
  | .not rd rs1 => Sys2Proof.Machine.execNot rd rs1 s
  | .add rd rs1 rs2 => Sys2Proof.Machine.execAdd rd rs1 rs2 s
  | .sub rd rs1 rs2 => Sys2Proof.Machine.execSub rd rs1 rs2 s
  | .and rd rs1 rs2 => Sys2Proof.Machine.execAnd rd rs1 rs2 s
  | .or rd rs1 rs2 => Sys2Proof.Machine.execOr rd rs1 rs2 s
  | .xor rd rs1 rs2 => Sys2Proof.Machine.execXor rd rs1 rs2 s
  | .addi rd rs1 imm => Sys2Proof.Machine.execAddi rd rs1 imm s
  | .andi rd rs1 imm => Sys2Proof.Machine.execAndi rd rs1 imm s
  | .ori rd rs1 imm => Sys2Proof.Machine.execOri rd rs1 imm s
  | .xori rd rs1 imm => Sys2Proof.Machine.execXori rd rs1 imm s
  | .jmp imm => Sys2Proof.Machine.execJmp imm s
  | .bz imm => Sys2Proof.Machine.execBz imm s
  | .bnz imm => Sys2Proof.Machine.execBnz imm s

end Sys2Proof.Machine
end

