-- ==== Sys2Proof/Machine/Cycle.lean ====
section
/-! DEFINITION. The execution cycle for any opcode map: one step (40_execution_cycle.md rule R90), the runner with fuel
(R92), and the host's placing of one word where the next step fetches. -/

namespace Sys2Proof.Machine

/-- A running core's step on the word its fetch gave (R90): no word is `PcOutOfBounds`, an illegal word is
`InvalidInstruction`, any other word is executed. -/
def stepOnFetch (om : OpMap) (word : Option Word24) (s : State) : Answer :=
  match word with
  | none => .next (raise .pcOutOfBounds s.pc s)
  | some w =>
    match decodeWith om w with
    | .illegal _ => .next (raise .invalidInstruction s.pc s)
    | .instr i => exec i s

/-- One step of the core (R90). A core that is not running does not change (10_state.md rule R20). -/
def stepWith (om : OpMap) (s : State) : Answer :=
  match s.status with
  | .running => stepOnFetch om (fetch s) s
  | .halted => .next s
  | .faulted _ _ => .next s

/-- What a runner with a step budget reports (R92): out of fuel is neither a success nor a fault of the core. -/
inductive RunResult where
  /-- `STATUS` is no longer `Running`. -/
  | ended (s : State)
  /-- The budget is used up and the core is still running. -/
  | outOfFuel (s : State)
deriving DecidableEq, Repr

/-- `run` with the budget `STEP_BUDGET` (R92; 00_scope.md rule R5). -/
def runWith (om : OpMap) : Nat → State → Host.Outcome RunResult Fault Refusal
  | 0, s => if s.status = .running then .next (.outOfFuel s) else .next (.ended s)
  | n + 1, s =>
    if s.status = .running then
      match stepWith om s with
      | .next t => runWith om n t
      | .fault r => .fault r
      | .refused r => .refused r
    else .next (.ended s)

/-- Place one word at `pc`, with `PROG_LEN` past it and `STATUS` running, so that the very next step fetches it (DESIGN CHOICE:
log entry 4). It stands for the host's load. -/
def placeWord (s : State) (w : Word24) : State :=
  { s with
    imem := Memory.write s.imem s.pc.toNat w
    progLen := max s.progLen (s.pc.toNat + 1)
    status := .running }

end Sys2Proof.Machine
end

