-- ==== Sys2Proof/Machine/Step.lean ====
section
/-! DEFINITION. The step of the machine with the default opcode map (40_execution_cycle.md rule R90), and the host's way to
place an instruction. -/

namespace Sys2Proof.Machine

/-- One step: next state, fault or refusal. It answers a next state always; a fault of the core is a next state too. -/
def step (s : State) : Host.Outcome State Fault Refusal :=
  stepWith OpMap.default s

/-- The state with the instruction whose bits are `w` placed where `step` fetches next (log entry 4). -/
def State.withFetchWord (s : State) (nbits w : Nat) : State :=
  placeWord s (BitVec.ofNat 24 (w % 2 ^ nbits))

end Sys2Proof.Machine
end

