-- ==== Sys2Proof/Machine/Loader.lean ====
section
/-! DEFINITION. What the host does before a run: containers and their bytes (20_memory.md rule R33), loading a program and
starting from reset or from a launch state (70_reset_and_hazards.md rules R182 to R184). -/

namespace Sys2Proof.Machine

/-- The integer in which software carries a word, its top 8 bits unused (R33). -/
abbrev Container := BitVec 32

/-- Why a loader refuses what it is given. -/
inductive LoadError where
  /-- A container with one of bits 31:24 set (R33; U4). -/
  | containerTooWide (c : Container)
  /-- A byte stream that does not hold whole containers (DESIGN CHOICE, safe: log entry 11). -/
  | partialContainer
  /-- More than 65536 words (R31; DESIGN CHOICE, safe: log entry 11). -/
  | programTooLong
deriving DecidableEq, Repr

/-- The container the encoder produces for a word: bits 31:24 zero (R33). -/
def containerOfWord (w : Word24) : Container :=
  w.setWidth 32

/-- The word a container carries; a container wider than a word is refused (R33). -/
def wordOfContainer (c : Container) : Except LoadError Word24 :=
  if c.extractLsb' 24 8 = 0 then .ok (c.setWidth 24) else .error (.containerTooWide c)

/-- The words of a list of containers; the first refused one refuses all. -/
def wordsOfContainers : List Container → Except LoadError (List Word24)
  | [] => .ok []
  | c :: rest =>
    match wordOfContainer c with
    | .error e => .error e
    | .ok w =>
      match wordsOfContainers rest with
      | .error e => .error e
      | .ok ws => .ok (w :: ws)

/-- A container's four bytes in the file's order (R33). -/
def containerBytes (order : Endian) (c : Container) : List Byte :=
  match order with
  | .little => [c.extractLsb' 0 8, c.extractLsb' 8 8, c.extractLsb' 16 8, c.extractLsb' 24 8]
  | .big => [c.extractLsb' 24 8, c.extractLsb' 16 8, c.extractLsb' 8 8, c.extractLsb' 0 8]

/-- The container four bytes of a file make. -/
def containerOfBytes (order : Endian) (b0 b1 b2 b3 : Byte) : Container :=
  match order with
  | .little => b0.setWidth 32 ||| b1.setWidth 32 <<< 8 ||| b2.setWidth 32 <<< 16 ||| b3.setWidth 32 <<< 24
  | .big => b3.setWidth 32 ||| b2.setWidth 32 <<< 8 ||| b1.setWidth 32 <<< 16 ||| b0.setWidth 32 <<< 24

/-- A program file: four bytes a word, in address order (R33). -/
def programFile (order : Endian) : List Word24 → List Byte
  | [] => []
  | w :: ws => containerBytes order (containerOfWord w) ++ programFile order ws

/-- The containers of a program file. -/
def containersOfFile (order : Endian) : List Byte → Except LoadError (List Container)
  | [] => .ok []
  | b0 :: b1 :: b2 :: b3 :: rest =>
    match containersOfFile order rest with
    | .error e => .error e
    | .ok cs => .ok (containerOfBytes order b0 b1 b2 b3 :: cs)
  | [_] | [_, _] | [_, _, _] => .error .partialContainer

/-- A state with a program in its instruction memory, the first word at address 0 (R30, R183). -/
def loadProgram (ws : List Word24) (s : State) : Except LoadError State :=
  if ws.length ≤ Config.maxProgLen then .ok { s with imem := Memory.ofWords 0 ws, progLen := ws.length }
  else .error .programTooLong

/-- Load, then reset (R183): the state before the first step of a program. -/
def bootProgram (ws : List Word24) : Except LoadError State :=
  loadProgram ws State.reset

/-- `INIT_STATE` (R184): `pc`, the fifteen cells and the flags; `x[0]` has no cell, and `STATUS` is always `Running`. -/
structure Launch where
  pc : Addr
  regs : Vector Byte 15
  flags : Flags
deriving DecidableEq, Repr

/-- Start a loaded program from a launch state (R184). -/
def launch (l : Launch) (s : State) : State :=
  { s with pc := l.pc, regs := l.regs, flags := l.flags, status := .running }

end Sys2Proof.Machine
end

