-- ==== Sys2Proof/Machine/Source.lean ====
section
/-! DEFINITION. The abstract level: an instruction or the pseudo-instruction `Label` (30_encoding.md rule R45; rule R112),
what the encoder and the step make of one, and the interpreter that fetches abstract instructions (40_execution_cycle.md
rules R90 and R91; decision D29). -/

namespace Sys2Proof.Machine

/-- One of the seventeen variants of R45. -/
inductive SourceInstr where
  /-- "address marker only, never encoded or executed" -/
  | label (name : String)
  | instr (i : Instr)
deriving DecidableEq, Repr

/-- `encode` on the abstract level: a `Label` must not reach it (R58), and that error comes first (R61). -/
def encodeSourceWith (om : OpMap) (i : SourceInstr) : Except EncodeError Word24 :=
  match i with
  | .label _ => .error .labelNotResolved
  | .instr i => encodeWith om i

/-- `exec` on the abstract level: a bare `Label` is `InvalidInstruction` (R91 check 1, R112). -/
def execSource (i : SourceInstr) (s : State) : Answer :=
  match i with
  | .label _ => .next (raise .invalidInstruction s.pc s)
  | .instr i => exec i s

/-- One step of the interpreter over a program of abstract instructions, whose length is `PROG_LEN`. -/
def stepSource (p : List SourceInstr) (s : State) : Answer :=
  match s.status with
  | .running =>
    match p[s.pc.toNat]? with
    | none => .next (raise .pcOutOfBounds s.pc s)
    | some i => execSource i s
  | .halted => .next s
  | .faulted _ _ => .next s

end Sys2Proof.Machine
end

