-- ==== Sys2Proof/Machine/Resolver.lean ====
section
/-! DEFINITION. The two-pass label resolver (30_encoding.md rules R79 to R82), supporting software (00_scope.md rule R3). -/

namespace Sys2Proof.Machine

/-- The symbol errors (R79 to R82; 60_exceptions.md rule R164). -/
inductive SymbolError where
  /-- A label declared twice (pass 1). -/
  | duplicateLabel (name : String)
  /-- A branch to a label that is not declared (pass 2). -/
  | undefinedLabel (name : String)
  /-- A `Label` pseudo-instruction reached pass 2: an internal-contract violation. -/
  | unstrippedLabel (name : String)
  /-- A referenced label whose address does not fit 12 bits (R82). -/
  | addressOverflow (name : String) (address : Nat)
deriving DecidableEq, Repr

/-- The symbol table, in the order of declaration (R79). Addresses are plain numbers, never truncated (DESIGN CHOICE, unsafe
only for the entry of a label at address 65536 or more:
log entry 9). -/
abbrev SymbolTable := List (String × Nat)

/-- The address a table gives a name. -/
def lookupSymbol : SymbolTable → String → Option Nat
  | [], _ => none
  | (n, a) :: rest, name => if n = name then some a else lookupSymbol rest name

/-- Pass 1 from an address and a table on (R79). -/
def stripFrom (a : Nat) (t : SymbolTable) :
    List SourceInstr → Except SymbolError (List SourceInstr × SymbolTable)
  | [] => .ok ([], t)
  | .label n :: rest =>
    match lookupSymbol t n with
    | some _ => .error (.duplicateLabel n)
    | none => stripFrom a (t ++ [(n, a)]) rest
  | .instr i :: rest =>
    match stripFrom (a + 1) t rest with
    | .error e => .error e
    | .ok (out, t') => .ok (.instr i :: out, t')

/-- Pass 1, strip (R79). -/
def stripSymbols (p : List SourceInstr) : Except SymbolError (List SourceInstr × SymbolTable) :=
  stripFrom 0 [] p

/-- The operand of a branch after pass 2 (R80, R82). -/
def resolveTarget (t : SymbolTable) (imm : Operand) : Except SymbolError Operand :=
  match imm with
  | .label n =>
    match lookupSymbol t n with
    | none => .error (.undefinedLabel n)
    | some a => if a ≤ 4095 then .ok (.imm12 (BitVec.ofNat 16 a)) else .error (.addressOverflow n a)
  | .reg n => .ok (.reg n)
  | .imm8 k => .ok (.imm8 k)
  | .imm12 v => .ok (.imm12 v)

/-- One instruction after pass 2: a branch with its target resolved, any other unchanged (R80). -/
def resolveInstr (t : SymbolTable) (i : Instr) : Except SymbolError Instr :=
  match i with
  | .jmp imm => (resolveTarget t imm).map Instr.jmp
  | .bz imm => (resolveTarget t imm).map Instr.bz
  | .bnz imm => (resolveTarget t imm).map Instr.bnz
  | .halt | .nop | .mv _ _ | .not _ _ | .add _ _ _ | .sub _ _ _ | .and _ _ _ | .or _ _ _ | .xor _ _ _
  | .addi _ _ _ | .andi _ _ _ | .ori _ _ _ | .xori _ _ _ => .ok i

/-- Pass 2, replace (R80). Its output holds no `Label` pseudo-instruction by its type (R81). -/
def replaceSymbols (t : SymbolTable) : List SourceInstr → Except SymbolError (List Instr)
  | [] => .ok []
  | .label n :: _ => .error (.unstrippedLabel n)
  | .instr i :: rest =>
    match resolveInstr t i with
    | .error e => .error e
    | .ok i' =>
      match replaceSymbols t rest with
      | .error e => .error e
      | .ok out => .ok (i' :: out)

/-- Both passes, strictly in order (R80). -/
def resolve (p : List SourceInstr) : Except SymbolError (List Instr) :=
  match stripSymbols p with
  | .error e => .error e
  | .ok (stripped, table) => replaceSymbols table stripped

end Sys2Proof.Machine
end

