-- ==== Sys2Proof/Machine/Parser.lean ====
section
/-! DEFINITION. The assembly text and its parser (30_encoding.md rules R70 to R78, R84), supporting software (00_scope.md rule
R3), and the pipelines `compile` and `assemble` (R83). -/

namespace Sys2Proof.Machine

/-- What is wrong with a line (R77's "description of the unmatched syntax"; DESIGN CHOICE: a name instead of a text, log
entry 10). -/
inductive ParseProblem where
  /-- The first word of the line is no mnemonic (R77). -/
  | unknownMnemonic
  /-- The operand count does not fit the mnemonic (R76). -/
  | operandCount
  /-- An operand is not of the kind its place needs (R73 to R76). -/
  | malformedOperand
  /-- A number that does not fit its field, or a register number above 255 (R73, R74). -/
  | outOfRange
  /-- A line ending in a colon whose name is no label name (R72, R84). -/
  | malformedLabel
deriving DecidableEq, Repr

/-- A failed line: its 1-based number and what is wrong with it (R77). -/
structure ParseError where
  line : Nat
  problem : ParseProblem
deriving DecidableEq, Repr

/-! ## Characters (R84) -/

/-- A space or a tab (R84 a, c). -/
def isBlank (c : Char) : Bool :=
  c == ' ' || c == '\t'

/-- An ASCII letter (R84 e). -/
def isLetter (c : Char) : Bool :=
  (decide ('a'.toNat ≤ c.toNat) && decide (c.toNat ≤ 'z'.toNat))
    || (decide ('A'.toNat ≤ c.toNat) && decide (c.toNat ≤ 'Z'.toNat))

/-- The lower-case form of an ASCII letter; any other character as it is. -/
def lowerChar (c : Char) : Char :=
  if decide ('A'.toNat ≤ c.toNat) && decide (c.toNat ≤ 'Z'.toNat) then Char.ofNat (c.toNat + 32) else c

/-- The value of a decimal digit. -/
def decDigit (c : Char) : Option Nat :=
  if decide ('0'.toNat ≤ c.toNat) && decide (c.toNat ≤ '9'.toNat) then some (c.toNat - '0'.toNat) else none

/-- The value of a hexadecimal digit, either case (R84 d). -/
def hexDigit (c : Char) : Option Nat :=
  if decide ('0'.toNat ≤ c.toNat) && decide (c.toNat ≤ '9'.toNat) then some (c.toNat - '0'.toNat)
  else if decide ('a'.toNat ≤ c.toNat) && decide (c.toNat ≤ 'f'.toNat) then some (c.toNat - 'a'.toNat + 10)
  else if decide ('A'.toNat ≤ c.toNat) && decide (c.toNat ≤ 'F'.toNat) then some (c.toNat - 'A'.toNat + 10)
  else none

/-! ## Pieces of a line -/

/-- A text cut at every occurrence of a character. -/
def splitAtChar (sep : Char) : List Char → List (List Char)
  | [] => [[]]
  | c :: cs =>
    if c = sep then [] :: splitAtChar sep cs
    else
      match splitAtChar sep cs with
      | [] => [[c]]
      | piece :: pieces => (c :: piece) :: pieces

/-- A line without its comment (R71, R84 b). -/
def stripComment (line : List Char) : List Char :=
  line.takeWhile (fun c => c != ';')

/-- A text without leading and trailing blanks (R84 a). -/
def trim (text : List Char) : List Char :=
  ((text.dropWhile isBlank).reverse.dropWhile isBlank).reverse

/-- The digits of a number read in a base, most significant first, after those already read. -/
def digitsValue (base : Nat) (digit : Char → Option Nat) (acc : Nat) : List Char → Option Nat
  | [] => some acc
  | c :: cs =>
    match digit c with
    | none => none
    | some d => digitsValue base digit (acc * base + d) cs

/-- One or more decimal digits (R84 f: leading zeros allowed). -/
def decNumber (text : List Char) : Option Nat :=
  match text with
  | [] => none
  | c :: cs => digitsValue 10 decDigit 0 (c :: cs)

/-- An immediate literal: `0x` and hexadecimal digits, or decimal digits (R74). -/
def numberLiteral (text : List Char) : Option Nat :=
  match text with
  | '0' :: 'x' :: c :: cs => digitsValue 16 hexDigit 0 (c :: cs)
  | _ => decNumber text

/-- A name of one or more ASCII letters (R84 e). -/
def isName (text : List Char) : Bool :=
  !text.isEmpty && text.all isLetter

/-! ## Operands -/

/-- A register operand `r<digits>`: an 8-bit number, no check against 15 (R73). -/
def parseReg (text : List Char) : Except ParseProblem Operand :=
  match text with
  | 'r' :: digits =>
    match decNumber digits with
    | none => .error .malformedOperand
    | some n => if n ≤ 255 then .ok (.reg (BitVec.ofNat 8 n)) else .error .outOfRange
  | _ => .error .malformedOperand

/-- An 8-bit immediate, 0 to 255 (R74). -/
def parseImm8 (text : List Char) : Except ParseProblem Operand :=
  match numberLiteral text with
  | none => .error .malformedOperand
  | some n => if n ≤ 255 then .ok (.imm8 (BitVec.ofNat 8 n)) else .error .outOfRange

/-- A branch target: a label name first, else a number 0 to 4095 (R74, R75). -/
def parseTarget (text : List Char) : Except ParseProblem Operand :=
  if isName text then .ok (.label (String.ofList text))
  else
    match numberLiteral text with
    | none => .error .malformedOperand
    | some n => if n ≤ 4095 then .ok (.imm12 (BitVec.ofNat 16 n)) else .error .outOfRange

/-! ## Instructions (the table of R76) -/

/-- No operand. -/
def parseN (i : Instr) (ops : List (List Char)) : Except ParseProblem Instr :=
  match ops with
  | [] => .ok i
  | _ :: _ => .error .operandCount

/-- Two registers. -/
def parseRR (mk : Operand → Operand → Instr) (ops : List (List Char)) : Except ParseProblem Instr :=
  match ops with
  | [d, a] => do return mk (← parseReg d) (← parseReg a)
  | _ => .error .operandCount

/-- Three registers. -/
def parseRRR (mk : Operand → Operand → Operand → Instr) (ops : List (List Char)) : Except ParseProblem Instr :=
  match ops with
  | [d, a, b] => do return mk (← parseReg d) (← parseReg a) (← parseReg b)
  | _ => .error .operandCount

/-- Two registers and an 8-bit immediate. -/
def parseI (mk : Operand → Operand → Operand → Instr) (ops : List (List Char)) : Except ParseProblem Instr :=
  match ops with
  | [d, a, k] => do return mk (← parseReg d) (← parseReg a) (← parseImm8 k)
  | _ => .error .operandCount

/-- A branch target. -/
def parseJ (mk : Operand → Instr) (ops : List (List Char)) : Except ParseProblem Instr :=
  match ops with
  | [t] => do return mk (← parseTarget t)
  | _ => .error .operandCount

/-- The instruction of a mnemonic and its operand texts. -/
def parseOperands (m : Mnemonic) (ops : List (List Char)) : Except ParseProblem Instr :=
  match m with
  | .halt => parseN .halt ops
  | .nop => parseN .nop ops
  | .mv => parseRR .mv ops
  | .not => parseRR .not ops
  | .add => parseRRR .add ops
  | .sub => parseRRR .sub ops
  | .and => parseRRR .and ops
  | .or => parseRRR .or ops
  | .xor => parseRRR .xor ops
  | .addi => parseI .addi ops
  | .andi => parseI .andi ops
  | .ori => parseI .ori ops
  | .xori => parseI .xori ops
  | .jmp => parseJ .jmp ops
  | .bz => parseJ .bz ops
  | .bnz => parseJ .bnz ops

/-- The mnemonic as the assembly text spells it, in lower case (R76). -/
def mnemonicText (m : Mnemonic) : List Char :=
  match m with
  | .halt => ['h', 'a', 'l', 't']
  | .nop => ['n', 'o', 'p']
  | .mv => ['m', 'v']
  | .not => ['n', 'o', 't']
  | .add => ['a', 'd', 'd']
  | .sub => ['s', 'u', 'b']
  | .and => ['a', 'n', 'd']
  | .or => ['o', 'r']
  | .xor => ['x', 'o', 'r']
  | .addi => ['a', 'd', 'd', 'i']
  | .andi => ['a', 'n', 'd', 'i']
  | .ori => ['o', 'r', 'i']
  | .xori => ['x', 'o', 'r', 'i']
  | .jmp => ['j', 'm', 'p']
  | .bz => ['b', 'z']
  | .bnz => ['b', 'n', 'z']

/-- The mnemonic a word of the text names, whatever its case (R76). -/
def mnemonicOfText (text : List Char) : Option Mnemonic :=
  Mnemonic.all.find? (fun m => decide (mnemonicText m = text.map lowerChar))

/-- The operand texts after the mnemonic, cut at commas (R76). -/
def operandTexts (rest : List Char) : List (List Char) :=
  if (trim rest).isEmpty then [] else (splitAtChar ',' rest).map trim

/-- An instruction line without its comment and its outer blanks. -/
def parseInstrLine (line : List Char) : Except ParseProblem Instr :=
  match mnemonicOfText (line.takeWhile (fun c => !isBlank c)) with
  | none => .error .unknownMnemonic
  | some m => parseOperands m (operandTexts (line.dropWhile (fun c => !isBlank c)))

/-- One line: nothing, a label declaration, or one instruction (R70 to R72). -/
def parseLine (line : List Char) : Except ParseProblem (Option SourceInstr) :=
  let text := trim (stripComment line)
  if text.isEmpty then .ok none
  else if text.getLast? = some ':' then
    if isName text.dropLast then .ok (some (.label (String.ofList text.dropLast))) else .error .malformedLabel
  else
    match parseInstrLine text with
    | .error e => .error e
    | .ok i => .ok (some (.instr i))

/-- The lines of a program from a line number on; the first failed line fails the whole (R77). -/
def parseLinesFrom (n : Nat) : List (List Char) → Except ParseError (List SourceInstr)
  | [] => .ok []
  | line :: rest =>
    match parseLine line with
    | .error e => .error ⟨n, e⟩
    | .ok item =>
      match parseLinesFrom (n + 1) rest with
      | .error e => .error e
      | .ok out => .ok (item.toList ++ out)

/-- A source text, its lines ended by line feeds (DESIGN CHOICE: log entry 10), numbered from 1 (R77). -/
def parseProgram (source : String) : Except ParseError (List SourceInstr) :=
  parseLinesFrom 1 (splitAtChar '\n' source.toList)

/-! ## The pipelines (R83) -/

/-- Why a source text gives no machine words (60_exceptions.md rule R164). -/
inductive AssembleError where
  | parse (e : ParseError)
  | symbol (e : SymbolError)
  | encode (e : EncodeError)
deriving DecidableEq, Repr

/-- `compile`: parse, strip, replace (R83). -/
def compile (source : String) : Except AssembleError (List Instr) :=
  match parseProgram source with
  | .error e => .error (.parse e)
  | .ok p =>
    match resolve p with
    | .error e => .error (.symbol e)
    | .ok out => .ok out

/-- The machine words of a source text: `encode_program(compile(source))` (R83, with conflict C3's correction). -/
def assembleWith (om : OpMap) (source : String) : Except AssembleError (List Word24) :=
  match compile source with
  | .error e => .error e
  | .ok p =>
    match encodeProgramWith om p with
    | .error e => .error (.encode e)
    | .ok ws => .ok ws

end Sys2Proof.Machine
end

