-- ==== Sys2Proof/Machine/Ports.lean ====
section
/-! DEFINITION. The core as a block with ports (70_reset_and_hazards.md rules R181, R185 to R187; 20_memory.md rule R41) and
`STATUS` as a register (10_state.md rule R18). One call of an edge function is one rising edge of `clk` (log entry 12). -/

namespace Sys2Proof.Machine

/-- The code of a fault kind (60_exceptions.md rule R150, decision D12). -/
def faultKindCode (k : Fault) : BitVec 3 :=
  match k with
  | .invalidRegister => 1
  | .invalidOperands => 2
  | .invalidInstruction => 3
  | .pcOutOfBounds => 4
  | .pcOverflow => 5

/-- `state[1:0]` of the `STATUS` register (R18). -/
def statusState (t : Status) : BitVec 2 :=
  match t with
  | .running => 0
  | .halted => 1
  | .faulted _ _ => 2

/-- `fault_code[2:0]`: 0 when not faulted (R18, R185). -/
def statusFaultCode (t : Status) : BitVec 3 :=
  match t with
  | .running => 0
  | .halted => 0
  | .faulted k _ => faultKindCode k

/-- `fault_info[15:0]`: 0 when not faulted (R18, R185). -/
def statusFaultInfo (t : Status) : BitVec 16 :=
  match t with
  | .running => 0
  | .halted => 0
  | .faulted _ info => info

/-- The output ports (R185). -/
structure Outputs where
  imemAddr : Addr
  halted : Bool
  faulted : Bool
  faultCode : BitVec 3
  faultInfo : BitVec 16
  obsPc : Addr
  obsZ : Bool
  obsV : Bool
  obsX : Vector Byte 15
deriving DecidableEq, Repr

/-- The outputs are functions of the state only (R186); reading them changes nothing (R187). -/
def outputs (s : State) : Outputs where
  imemAddr := s.pc
  halted := decide (statusState s.status = 1)
  faulted := decide (statusState s.status = 2)
  faultCode := statusFaultCode s.status
  faultInfo := statusFaultInfo s.status
  obsPc := s.pc
  obsZ := s.flags.zero
  obsV := s.flags.overflow
  obsX := s.regs

/-- The input ports other than the clock (R185). -/
structure Inputs where
  rst : Bool
  imemValid : Bool
  imemData : Word24
deriving DecidableEq, Repr

/-- The memory drives the inputs as R41 says: `imem_valid` exactly when `imem_addr < PROG_LEN`, and then `imem_data` the word
there. What `imem_data` is otherwise is not constrained. -/
def Inputs.Consistent (p : Inputs) (s : State) : Prop :=
  (p.imemValid = true ↔ s.pc.toNat < s.progLen) ∧
    (p.imemValid = true → imemRead s s.pc.toNat = some p.imemData)

/-- What the fetch sees on the ports: `imem_data` when `imem_valid`, nothing otherwise (R41). -/
def fetchedOnPorts (p : Inputs) : Option Word24 :=
  if p.imemValid then some p.imemData else none

/-- One rising edge of the core driven by its input ports (R181, R186). -/
def coreEdgeWith (om : OpMap) (p : Inputs) (s : State) : Answer :=
  if p.rst then .next (resetCore s)
  else
    match s.status with
    | .running => stepOnFetch om (fetchedOnPorts p) s
    | .halted => .next s
    | .faulted _ _ => .next s

/-- One rising edge of the core with its instruction memory attached (R186): reset, else one step. -/
def clockEdgeWith (om : OpMap) (rst : Bool) (s : State) : Answer :=
  if rst then .next (resetCore s) else stepWith om s

end Sys2Proof.Machine
end

