-- ==== Sys2Proof/Safety.lean ====
section
/-! DEFINITION. What counts as a good state and a good end of a run, in the terms claims use (40_execution_cycle.md rule R102;
10_state.md rules R18, R20; 20_memory.md rule R31). -/

namespace Sys2Proof

/-! ## The terms of claims about single instructions -/

/-- The operand that names an existing register (10_state.md rule R15). -/
def regOf (i : RegIndex) : Operand := .reg (i.setWidth 8)

/-- The operand that holds a 12-bit branch target (45_control_transfer.md rule R140). -/
def targetOf (k : BitVec 12) : Operand := .imm12 (k.setWidth 16)

/-- The index a register slot carries. -/
def Operand.indices : Operand → List Byte
  | .reg n => [n]
  | .imm8 _ | .imm12 _ | .label _ => []

/-- The register a slot names, if it names one that exists. -/
def Operand.register? : Operand → Option RegIndex
  | .reg n => if n.toNat ≤ 15 then some (n.setWidth 4) else none
  | .imm8 _ | .imm12 _ | .label _ => none

/-- The slot holds an unresolved label. -/
def Operand.isLabel : Operand → Bool
  | .label _ => true
  | .reg _ | .imm8 _ | .imm12 _ => false

/-- The register an instruction writes when it executes: its `rd`, if it has one and it names a register (10_state.md
rule R23). -/
def Instr.destination : Instr → Option RegIndex
  | .halt | .nop | .jmp _ | .bz _ | .bnz _ => none
  | .mv d _ | .not d _ => d.register?
  | .add d _ _ | .sub d _ _ | .and d _ _ | .or d _ _ | .xor d _ _ => d.register?
  | .addi d _ _ | .andi d _ _ | .ori d _ _ | .xori d _ _ => d.register?

/-- The register indices of an instruction in the order the step checks them: `rs1`, `rs2`, `rd` (60_exceptions.md
rule R160). -/
def Instr.checkedRegisters : Instr → List Byte
  | .halt | .nop | .jmp _ | .bz _ | .bnz _ => []
  | .mv d a | .not d a => a.indices ++ d.indices
  | .add d a b | .sub d a b | .and d a b | .or d a b | .xor d a b => a.indices ++ b.indices ++ d.indices
  | .addi d a _ | .andi d a _ | .ori d a _ | .xori d a _ => a.indices ++ d.indices

/-- The same instruction with another destination register. -/
def Instr.redirect (i : Instr) (d : RegIndex) : Instr :=
  match i with
  | .halt => .halt
  | .nop => .nop
  | .mv _ a => .mv (regOf d) a
  | .not _ a => .not (regOf d) a
  | .add _ a b => .add (regOf d) a b
  | .sub _ a b => .sub (regOf d) a b
  | .and _ a b => .and (regOf d) a b
  | .or _ a b => .or (regOf d) a b
  | .xor _ a b => .xor (regOf d) a b
  | .addi _ a k => .addi (regOf d) a k
  | .andi _ a k => .andi (regOf d) a k
  | .ori _ a k => .ori (regOf d) a k
  | .xori _ a k => .xori (regOf d) a k
  | .jmp t => .jmp t
  | .bz t => .bz t
  | .bnz t => .bnz t

/-- The instruction tests `Z` and leaves the flags alone: BZ and BNZ (10_state.md rule R19). -/
def Instr.isBranch (i : Instr) : Bool :=
  match i.mnemonic with
  | .bz | .bnz => true
  | .halt | .nop | .mv | .not | .add | .sub | .and | .or | .xor | .addi | .andi | .ori | .xori | .jmp => false

/-- The instruction's next `pc` is `pc + 1` when `Z` has the value (40_execution_cycle.md rule R101). -/
def Instr.goesOn (i : Instr) (z : Bool) : Bool :=
  match i.mnemonic with
  | .halt | .jmp => false
  | .bz => !z
  | .bnz => z
  | .nop | .mv | .not | .add | .sub | .and | .or | .xor | .addi | .andi | .ori | .xori => true

end Sys2Proof

namespace Sys2Proof.Machine

/-- The instruction memory is in canonical form, lists addresses below `PROG_LEN` only, and `PROG_LEN` is at most 65536
(R31). -/
def State.memoryOk (s : State) : Bool :=
  Memory.wf s.imem && Memory.below s.imem s.progLen && decide (s.progLen ≤ Config.maxProgLen)

/-- The run has ended (R102). -/
def State.Ended (s : State) : Prop := s.status ≠ .running

/-- The run ended successfully (R102): HALT is the only success. -/
def State.Succeeded (s : State) : Prop := s.status = .halted

/-- What a recorded fault says of the state of a core that runs words with the opcode map (60_exceptions.md rules R150, R151,
R155 to R157): the payload is `pc`, and the cause is still there to see, because a fault changes nothing else. The two kinds
of the abstract level never occur. -/
def FaultExplained (om : OpMap) (kind : Fault) (info : BitVec 16) (s : State) : Prop :=
  info = s.pc ∧
    match kind with
    | .invalidRegister => False
    | .invalidOperands => False
    | .invalidInstruction => ∃ w, fetch s = some w ∧ decodeWith om w = .illegal w
    | .pcOutOfBounds => s.progLen ≤ s.pc.toNat
    | .pcOverflow => s.pc = 0xFFFF ∧ s.pc.toNat < s.progLen

/-- What `STATUS` says of the state of a core that runs words with the opcode map (10_state.md rule R18): a halted core stands
at a HALT with the flags HALT leaves (R102, R110), a faulted one can be explained. -/
def StatusExplained (om : OpMap) (s : State) : Prop :=
  match s.status with
  | .running => True
  | .halted => s.flags = ⟨true, false⟩ ∧ ∃ w, fetch s = some w ∧ decodeWith om w = .instr .halt
  | .faulted kind info => FaultExplained om kind info s

/-! ## What an instruction leaves -/

/-- What an ALU or move instruction leaves (10_state.md rules R15, R16, R19, R23; 40_execution_cycle.md rule R97): the value
in `x[d]` unless `d = 0`, every other register as before, the two flags, `pc + 1`, and nothing else changed. -/
structure LeavesResult (s t : State) (d : RegIndex) (value : Nat) (overflow : Bool) : Prop where
  registers : ∀ i : RegIndex, (readReg t i).toNat = if i = d ∧ i ≠ 0 then value else (readReg s i).toNat
  zeroFlag : t.flags.zero = decide (value = 0)
  overflowFlag : t.flags.overflow = overflow
  pc : t.pc.toNat = s.pc.toNat + 1
  status : t.status = s.status
  instructionMemory : ∀ a, imemRead t a = imemRead s a

/-- What an instruction leaves that writes no register: the flags, the `pc`, the status, and everything else as before. -/
structure LeavesControl (s t : State) (flags : Flags) (pc : Nat) (status : Status) : Prop where
  registers : ∀ i : RegIndex, readReg t i = readReg s i
  flags : t.flags = flags
  pc : t.pc.toNat = pc
  status : t.status = status
  instructionMemory : ∀ a, imemRead t a = imemRead s a

/-- The state after a fault of the kind: `STATUS` records it with some payload, nothing else changed (60_exceptions.md
rule R152). -/
def FaultsWith (kind : Fault) (s : State) (answer : Answer) : Prop :=
  ∃ info, answer = .next { s with status := .faulted kind info }

/-- Two states that differ in the overflow flag at most. -/
def SameButOverflow (s t : State) : Prop :=
  t = { s with flags := ⟨s.flags.zero, t.flags.overflow⟩ }

/-! ## Runs -/

/-- The state a runner reports. -/
def RunResult.state : RunResult → State
  | .ended s => s
  | .outOfFuel s => s

/-- A run with enough fuel ends in the state (R92). -/
def RunEndsIn (om : OpMap) (s t : State) : Prop :=
  ∃ n, runWith om n s = .next (.ended t)

/-! ## The terms of claims about programs before they are loaded -/

/-- The text of a register operand in decimal (30_encoding.md rule R73). -/
def regText (i : RegIndex) : List Char := 'r' :: Nat.toDigits 10 i.toNat

/-- How many of the items are instructions: the address of what comes after them (30_encoding.md rule R79). -/
def instrCount (p : List SourceInstr) : Nat :=
  p.countP (fun i => match i with | .label _ => false | .instr _ => true)

/-- The names of the labels a program declares, in order. -/
def labelNames (p : List SourceInstr) : List String :=
  p.filterMap (fun i => match i with | .label n => some n | .instr _ => none)

end Sys2Proof.Machine
end

