-- ==== Sys2Proof/Certificates/Slice0/Obligations.lean ====
section
/-! DEFINITION. The statements for the provers, from the numbered rules of spec/. Where a clause rests on one of the spec's own
decisions D1 to D29, the statement's docstring names it. -/

open Sys2Proof Sys2Proof.Machine

/-! ## Encoding -/

/-- One word of each format and one illegal word of 95_test_vectors.md decode as listed there. The words rest on the spec's decision
D1 (log entry 5). -/
def Obligations.SpecWordsDecode : Prop :=
  decode 0x000000 = .instr .halt ∧
    decode 0x001103 = .instr (.not (.reg 1) (.reg 1)) ∧
    decode 0x021304 = .instr (.add (.reg 3) (.reg 1) (.reg 2)) ∧
    decode 0xFFFF44 = .instr (.addi (.reg 15) (.reg 15) (.imm8 255)) ∧
    decode 0xFFF089 = .instr (.jmp (.imm12 4095)) ∧
    decode 0x00408A = .instr (.bz (.imm12 4)) ∧
    decode 0x121304 = .illegal 0x121304

/-- The four round-trip laws of R64, for every opcode map that rule R5 admits, so that they do not rest on the numbers of decision D1. -/
def Obligations.DecodeAndEncodeAreInverse : Prop :=
  ∀ om : OpMap, om.Injective →
    (∀ i : Instr, i.wellFormed = true → ∃ w, encodeWith om i = .ok w ∧ decodeWith om w = .instr i) ∧
    (∀ (w : Word24) (i : Instr), decodeWith om w = .instr i → encodeWith om i = .ok w) ∧
    (∀ (w w' : Word24) (i : Instr), decodeWith om w = .instr i → decodeWith om w' = .instr i → w = w') ∧
    (∀ (w : Word24) (i : Instr), decodeWith om w = .instr i → i.wellFormed = true)

/-- The five classes of illegal words of 30_encoding.md section 7, as arithmetic on the value of the word. They rest on the spec's
decisions D1, D2 and D4 (log entry 5). -/
def Obligations.IllegalWordsAreExactlyTheReservedOnes : Prop :=
  ∀ w : Word24,
    decode w = .illegal w ↔
      (w.toNat / 64 % 4 = 3 ∨
        (w.toNat / 64 % 4 = 0 ∧ 9 ≤ w.toNat % 64) ∨
        (w.toNat / 64 % 4 = 1 ∧ w.toNat % 64 ≠ 4 ∧ w.toNat % 64 ≠ 6 ∧ w.toNat % 64 ≠ 7 ∧ w.toNat % 64 ≠ 8) ∨
        (w.toNat / 64 % 4 = 2 ∧ w.toNat % 64 ≠ 9 ∧ w.toNat % 64 ≠ 10 ∧ w.toNat % 64 ≠ 11) ∨
        (w.toNat / 64 % 4 = 0 ∧ w.toNat % 64 ≤ 1 ∧ w.toNat / 256 ≠ 0) ∨
        (w.toNat / 64 % 4 = 0 ∧ 2 ≤ w.toNat % 64 ∧ w.toNat % 64 ≤ 3 ∧ w.toNat / 65536 ≠ 0) ∨
        (w.toNat / 64 % 4 = 0 ∧ 4 ≤ w.toNat % 64 ∧ w.toNat % 64 ≤ 8 ∧ w.toNat / 1048576 ≠ 0) ∨
        (w.toNat / 64 % 4 = 2 ∧ 9 ≤ w.toNat % 64 ∧ w.toNat % 64 ≤ 11 ∧ w.toNat / 256 % 16 ≠ 0))

/-- The match and mask columns of the default opcode map say what the decoder does. The table is the spec's decision D1 (log entry 5). -/
def Obligations.WordIsTheInstructionOfItsTableRow : Prop :=
  ∀ (w : Word24) (m : Mnemonic),
    w &&& m.rowMask = m.rowMatch ↔ ∃ i, decode w = .instr i ∧ i.mnemonic = m

/-- The field setter of 30_encoding.md section 5: its range check, its exact bit range, and that fields can be set in any order
without cross-contamination. -/
def Obligations.FieldsCanBeSetInAnyOrder : Prop :=
  (∀ (w : Word24) (lo width v : Nat), lo + width ≤ 24 →
    (2 ^ width ≤ v → setField w lo width v = .error .overflow) ∧
    (v < 2 ^ width → ∃ w', setField w lo width v = .ok w' ∧
      ∀ k, k < 24 → w'.getLsbD k = if lo ≤ k ∧ k < lo + width then v.testBit (k - lo) else w.getLsbD k)) ∧
  (∀ (w : Word24) (fs gs : List (Nat × Nat × Nat)), fs.Perm gs →
    (∀ f ∈ fs, f.1 + f.2.1 ≤ 24 ∧ f.2.2 < 2 ^ f.2.1) →
    fs.Pairwise (fun f g => f.1 + f.2.1 ≤ g.1 ∨ g.1 + g.2.1 ≤ f.1) →
    setFields w fs = setFields w gs)

/-- R57, for every opcode map. A JMP, BZ or BNZ that still holds a label and an ADDI that holds an Imm12 are not well-shaped. -/
def Obligations.EncoderRefusesWrongOperandKinds : Prop :=
  ∀ (om : OpMap) (i : Instr), i.wellShaped = false → encodeWith om i = .error .invalidOperand

/-- When the encoder gives a word, and its errors but the one of EncoderRefusesWrongOperandKinds. The kind for a register
index, the Label error and the order of the errors are the spec's decisions D19 and D20 (log entry 5). -/
def Obligations.EncoderRefusesExactlyTheIllFormed : Prop :=
  ∀ (om : OpMap) (i : Instr),
    ((∃ w, encodeWith om i = .ok w) ↔ i.wellFormed = true) ∧
    (i.wellShaped = true → i.wellFormed = false → encodeWith om i = .error .overflow) ∧
    encodeWith om i ≠ .error .unknownInstruction ∧
    ∀ n, encodeSourceWith om (.label n) = .error .labelNotResolved

/-- R56, for every opcode map: order, independence, first error, and the words as IMEM with PROG_LEN = length of p. -/
def Obligations.EncodedProgramKeepsOrderAndAddresses : Prop :=
  ∀ (om : OpMap) (p : List Instr),
    (∀ ws, encodeProgramWith om p = .ok ws →
      ws.length = p.length ∧
      (∀ (k : Nat) (i : Instr), p[k]? = some i → ∃ w, ws[k]? = some w ∧ encodeWith om i = .ok w) ∧
      (p.length ≤ 65536 → ∃ s, bootProgram ws = .ok s ∧ s.progLen = p.length ∧ ∀ a, imemRead s a = ws[a]?)) ∧
    (∀ e, encodeProgramWith om p = .error e →
      ∃ (k : Nat) (i : Instr), p[k]? = some i ∧ encodeWith om i = .error e ∧
        ∀ (j : Nat) (i' : Instr), j < k → p[j]? = some i' → ∃ w, encodeWith om i' = .ok w)

/-! ## The step -/

/-- The step of 40_execution_cycle.md section 1 (the STATUS test is the spec's decision D9). Nothing is added around `exec`: it moves
the `pc` itself. -/
def Obligations.StepRunsTheDecodedInstruction : Prop :=
  ∀ (s : State) (w : Word24) (i : Instr),
    s.status = .running → fetch s = some w → decode w = .instr i → step s = exec i s

/-- `withFetchWord` stands for the host's load of one word (the model's choice: log entry 4). The premise
`memoryOk` is the invariant of StepKeepsTheProgram and ResetStateMeetsTheInvariants. -/
def Obligations.PlacedWordRunsNext : Prop :=
  ∀ (s : State) (w : Word24), s.memoryOk = true →
    fetch (placeWord s w) = some w ∧
    (∀ i, decode w = .instr i → step (placeWord s w) = exec i (placeWord s w)) ∧
    (∀ a, a ≠ s.pc.toNat → a < s.progLen → imemRead (placeWord s w) a = imemRead s a) ∧
    (placeWord s w).pc = s.pc ∧ (placeWord s w).regs = s.regs ∧ (placeWord s w).flags = s.flags

/-- `STATUS` is sticky (the spec's decision D9, log entry 5). -/
def Obligations.StoppedCoreNeverChanges : Prop :=
  ∀ (om : OpMap) (s : State), s.status ≠ .running →
    stepWith om s = .next s ∧ ∀ n, runWith om n s = .next (.ended s)

/-- Taking a fault is a next state (log entry 6). -/
def Obligations.StepAlwaysAnswersANextState : Prop :=
  (∀ (i : Instr) (s : State), ∃ t, exec i s = .next t) ∧
  (∀ (om : OpMap) (s : State), ∃ t, stepWith om s = .next t) ∧
  (∀ (om : OpMap) (n : Nat) (s : State), ∃ r, runWith om n s = .next r)

/-- The invariant of a core that runs words: what `STATUS` says is true of the rest of the state. The payload and the precise faults
are the spec's decisions D10, D12, D18 and D24 (log entry 5). -/
def Obligations.StepKeepsStatusExplained : Prop :=
  ∀ (om : OpMap) (s t : State),
    StatusExplained om s → stepWith om s = .next t → StatusExplained om t

/-- The instruction memory is constant during a run (the spec's decision D26; the program is part of State by log entry 1). -/
def Obligations.StepKeepsTheProgram : Prop :=
  (∀ (om : OpMap) (s t : State), stepWith om s = .next t →
    (s.memoryOk = true → t.memoryOk = true) ∧ t.progLen = s.progLen ∧ ∀ a, imemRead t a = imemRead s a) ∧
  (∀ (om : OpMap) (n : Nat) (s : State) (r : RunResult), runWith om n s = .next r →
    r.state.progLen = s.progLen ∧ ∀ a, imemRead r.state a = imemRead s a)

/-- The invariants hold at reset (its empty memory is the model's choice: log entry 3). -/
def Obligations.ResetStateMeetsTheInvariants : Prop :=
  (∀ om : OpMap, StatusExplained om State.reset) ∧ State.reset.memoryOk = true

/-- `raise` writes `STATUS` and nothing else (the spec's decision D10, log entry 5). -/
def Obligations.FaultsArePrecise : Prop :=
  ∀ (om : OpMap) (s t : State) (kind : Fault) (info : BitVec 16),
    s.status = .running → stepWith om s = .next t → t.status = .faulted kind info →
      t = { s with status := .faulted kind info }

/-! ## Faults -/

/-- R156: the cause, the payload, the empty program, and that the fault is the step's after the one that set the bad `pc`. -/
def Obligations.FetchBeyondTheProgramFaults : Prop :=
  (∀ (om : OpMap) (s : State), s.status = .running → s.progLen ≤ s.pc.toNat →
    stepWith om s = .next { s with status := .faulted .pcOutOfBounds s.pc }) ∧
  (∀ (om : OpMap) (s : State), s.status = .running → s.progLen = 0 →
    stepWith om s = .next { s with status := .faulted .pcOutOfBounds s.pc }) ∧
  (∀ (s : State) (w : Word24) (k : BitVec 12), s.status = .running → fetch s = some w →
    decode w = .instr (.jmp (targetOf k)) → s.progLen ≤ k.toNat →
    ∃ t, step s = .next t ∧ LeavesControl s t ⟨true, false⟩ k.toNat .running ∧
      step t = .next { t with status := .faulted .pcOutOfBounds t.pc })

/-- InvalidInstruction at the word level (the spec's decision D4, log entry 5) and for a bare `Label`. -/
def Obligations.IllegalWordOrLabelFaults : Prop :=
  (∀ (om : OpMap) (s : State) (w : Word24), s.status = .running → fetch s = some w →
    decodeWith om w = .illegal w →
    stepWith om s = .next { s with status := .faulted .invalidInstruction s.pc }) ∧
  (∀ (n : String) (s : State),
    execSource (.label n) s = .next { s with status := .faulted .invalidInstruction s.pc })

/-- R154: the fault, and that no instruction obtained from `decode` raises it. -/
def Obligations.WrongOperandKindFaults : Prop :=
  (∀ (i : Instr) (s : State), i.wellShaped = false → FaultsWith .invalidOperands s (exec i s)) ∧
  (∀ (om : OpMap) (w : Word24) (i : Instr), decodeWith om w = .instr i →
    i.wellShaped = true ∧ ∀ (s : State), s.status = .running →
      ¬ FaultsWith .invalidOperands s (exec i s))

/-- R153: every `Reg` slot, read or written; nothing else changes; not reachable from `decode`. -/
def Obligations.RegisterAboveFifteenFaults : Prop :=
  (∀ (i : Instr) (s : State), i.wellShaped = true → (∃ n ∈ i.checkedRegisters, 15 < n.toNat) →
    FaultsWith .invalidRegister s (exec i s)) ∧
  (∀ (om : OpMap) (w : Word24) (i : Instr) (n : Byte), decodeWith om w = .instr i →
    n ∈ i.checkedRegisters → n.toNat ≤ 15)

/-- Order and payload of the operand faults (the spec's decisions D11 and D24, log entry 5). -/
def Obligations.FaultPayloadAndCheckOrder : Prop :=
  ∀ (i : Instr) (s : State),
    (i.wellShaped = false → exec i s = .next { s with status := .faulted .invalidOperands s.pc }) ∧
    (∀ t : BitVec 16, Operand.imm12 t ∈ i.operands → 4095 < t.toNat →
      exec i s = .next { s with status := .faulted .invalidOperands s.pc }) ∧
    (∀ n : Byte, i.wellShaped = true → i.checkedRegisters.find? (fun k => decide (15 < k.toNat)) = some n →
      exec i s = .next { s with status := .faulted .invalidRegister (n.setWidth 16) })

/-- No wrap-around of `pc + 1` (the spec's decision D7, log entry 5). -/
def Obligations.SuccessorOfTheTopAddressFaults : Prop :=
  ∀ (i : Instr) (s : State), i.wellFormed = true → s.pc = 0xFFFF → s.status = .running →
    (i.goesOn s.flags.zero = true → exec i s = .next { s with status := .faulted .pcOverflow 0xFFFF }) ∧
    (i.goesOn s.flags.zero = false → ∃ t, exec i s = .next t ∧ (t.status = .running ∨ t.status = .halted))

/-! ## Reset and ports -/

/-- R180, as the edge of R181 with `rst = 1`; nothing survives. -/
def Obligations.ResetEdgeGivesTheResetState : Prop :=
  ∀ (om : OpMap) (s : State), ∃ t, clockEdgeWith om true s = .next t ∧
    t.pc = 0 ∧ (∀ i : RegIndex, readReg t i = 0) ∧ t.flags = ⟨true, false⟩ ∧ t.status = .running

/-- The port-level core (the spec's decisions D15 and D26, log entries 5 and 12). -/
def Obligations.CoreOnItsPortsIsTheMachine : Prop :=
  (∀ (om : OpMap) (p : Inputs) (s : State), p.Consistent s → coreEdgeWith om p s = clockEdgeWith om p.rst s) ∧
  (∀ (om : OpMap) (p : Inputs) (d : Word24) (s : State), p.imemValid = false →
    coreEdgeWith om { p with imemData := d } s = coreEdgeWith om p s) ∧
  (∀ (om : OpMap) (s : State), ∃ t, clockEdgeWith om true s = .next t ∧ t.progLen = s.progLen ∧
    ∀ a, imemRead t a = imemRead s a)

/-- The output ports of R185 with the codes of R150 (the spec's decisions D12 and D15, log entry 5). -/
def Obligations.OutputsShowTheStatus : Prop :=
  ∀ s : State,
    ((outputs s).halted = true ↔ s.status = .halted) ∧
    ((outputs s).faulted = true ↔ ∃ kind info, s.status = .faulted kind info) ∧
    ((outputs s).faulted = false → (outputs s).faultCode = 0 ∧ (outputs s).faultInfo = 0) ∧
    (∀ kind info, s.status = .faulted kind info → (outputs s).faultInfo = info ∧
      (outputs s).faultCode =
        match kind with
        | .invalidRegister => 1
        | .invalidOperands => 2
        | .invalidInstruction => 3
        | .pcOutOfBounds => 4
        | .pcOverflow => 5) ∧
    (outputs s).imemAddr = s.pc ∧ (outputs s).obsPc = s.pc ∧
    (outputs s).obsZ = s.flags.zero ∧ (outputs s).obsV = s.flags.overflow ∧
    (∀ k : Fin 15, (outputs s).obsX[k] = readReg s (BitVec.ofNat 4 (k.val + 1)))

/-! ## The instructions: control and meta -/

/-- HALT (that `pc` stays is the spec's decision D18, log entry 5). The equation is HALT's completion. -/
def Obligations.HaltStopsTheRun : Prop :=
  encode .halt = .ok 0x000000 ∧
  parseLine "halt".toList = .ok (some (.instr .halt)) ∧
  ∀ s : State, ∃ t, exec .halt s = .next t ∧ LeavesControl s t ⟨true, false⟩ s.pc.toNat .halted

/-- R111. The clause at `pc = 0xFFFF` is the spec's decision D7 (log entry 5). -/
def Obligations.NopResetsTheFlagsAndGoesOn : Prop :=
  encode .nop = .ok 0x000001 ∧
  parseLine "nop".toList = .ok (some (.instr .nop)) ∧
  (∀ s : State, s.pc ≠ 0xFFFF →
    ∃ t, exec .nop s = .next t ∧ LeavesControl s t ⟨true, false⟩ (s.pc.toNat + 1) s.status) ∧
  (∀ s : State, s.pc = 0xFFFF → FaultsWith .pcOverflow s (exec .nop s))

/-! ## The instructions: unary -/

/-- R115. The clause at `pc = 0xFFFF` is the spec's decision D7 (log entry 5). -/
def Obligations.MvCopiesTheRegister : Prop :=
  (∀ d a : RegIndex,
    encode (.mv (regOf d) (regOf a)) = .ok (0x000002 ||| d.setWidth 24 <<< 8 ||| a.setWidth 24 <<< 12) ∧
    parseLine ("mv ".toList ++ regText d ++ ", ".toList ++ regText a)
      = .ok (some (.instr (.mv (regOf d) (regOf a)))) ∧
    (∀ s : State, s.pc ≠ 0xFFFF → ∃ t, exec (.mv (regOf d) (regOf a)) s = .next t ∧
      LeavesResult s t d ((readReg s a).toNat) false) ∧
    (∀ s : State, s.pc = 0xFFFF → FaultsWith .pcOverflow s (exec (.mv (regOf d) (regOf a)) s))) ∧
  (∀ (rd rs1 : Operand) (s : State), (rd.isReg && rs1.isReg) = false →
    FaultsWith .invalidOperands s (exec (.mv rd rs1) s)) ∧
  (∀ (n m : Byte) (s : State), 15 < n.toNat ∨ 15 < m.toNat →
    FaultsWith .invalidRegister s (exec (.mv (.reg n) (.reg m)) s))

/-- R116. The clause at `pc = 0xFFFF` is the spec's decision D7 (log entry 5). -/
def Obligations.NotComplementsTheRegister : Prop :=
  (∀ d a : RegIndex,
    encode (.not (regOf d) (regOf a)) = .ok (0x000003 ||| d.setWidth 24 <<< 8 ||| a.setWidth 24 <<< 12) ∧
    parseLine ("not ".toList ++ regText d ++ ", ".toList ++ regText a)
      = .ok (some (.instr (.not (regOf d) (regOf a)))) ∧
    (∀ s : State, s.pc ≠ 0xFFFF → ∃ t, exec (.not (regOf d) (regOf a)) s = .next t ∧
      LeavesResult s t d (255 - (readReg s a).toNat) false) ∧
    (∀ s : State, s.pc = 0xFFFF → FaultsWith .pcOverflow s (exec (.not (regOf d) (regOf a)) s))) ∧
  (∀ (rd rs1 : Operand) (s : State), (rd.isReg && rs1.isReg) = false →
    FaultsWith .invalidOperands s (exec (.not rd rs1) s)) ∧
  (∀ (n m : Byte) (s : State), 15 < n.toNat ∨ 15 < m.toNat →
    FaultsWith .invalidRegister s (exec (.not (.reg n) (.reg m)) s))

/-! ## The instructions: binary ALU on registers -/

/-- R120, for all registers, equal or 0 among them. -/
def Obligations.AddLeavesTheSumModulo256 : Prop :=
  ∀ d a b : RegIndex,
    encode (.add (regOf d) (regOf a) (regOf b))
      = .ok (0x000004 ||| d.setWidth 24 <<< 8 ||| a.setWidth 24 <<< 12 ||| b.setWidth 24 <<< 16) ∧
    ∀ s : State, s.pc ≠ 0xFFFF → ∃ t, exec (.add (regOf d) (regOf a) (regOf b)) s = .next t ∧
      LeavesResult s t d (((readReg s a).toNat + (readReg s b).toNat) % 256) (decide ((readReg s a).toNat + (readReg s b).toNat > 255))

/-- SUB (the operand order is the spec's decision D27, log entry 5). -/
def Obligations.SubLeavesTheDifferenceModulo256 : Prop :=
  ∀ d a b : RegIndex,
    encode (.sub (regOf d) (regOf a) (regOf b))
      = .ok (0x000005 ||| d.setWidth 24 <<< 8 ||| a.setWidth 24 <<< 12 ||| b.setWidth 24 <<< 16) ∧
    ∀ s : State, s.pc ≠ 0xFFFF → ∃ t, exec (.sub (regOf d) (regOf a) (regOf b)) s = .next t ∧
      LeavesResult s t d (((readReg s a).toNat + 256 - (readReg s b).toNat) % 256) (decide ((readReg s a).toNat < (readReg s b).toNat))

/-- AND (`Z` from the result is the spec's decision D28, log entry 5). -/
def Obligations.AndLeavesTheBitwiseAnd : Prop :=
  ∀ d a b : RegIndex,
    encode (.and (regOf d) (regOf a) (regOf b))
      = .ok (0x000006 ||| d.setWidth 24 <<< 8 ||| a.setWidth 24 <<< 12 ||| b.setWidth 24 <<< 16) ∧
    ∀ s : State, s.pc ≠ 0xFFFF → ∃ t, exec (.and (regOf d) (regOf a) (regOf b)) s = .next t ∧
      LeavesResult s t d ((readReg s a).toNat &&& (readReg s b).toNat) false

/-- OR (`Z` from the result is the spec's decision D28, log entry 5). -/
def Obligations.OrLeavesTheBitwiseOr : Prop :=
  ∀ d a b : RegIndex,
    encode (.or (regOf d) (regOf a) (regOf b))
      = .ok (0x000007 ||| d.setWidth 24 <<< 8 ||| a.setWidth 24 <<< 12 ||| b.setWidth 24 <<< 16) ∧
    ∀ s : State, s.pc ≠ 0xFFFF → ∃ t, exec (.or (regOf d) (regOf a) (regOf b)) s = .next t ∧
      LeavesResult s t d ((readReg s a).toNat ||| (readReg s b).toNat) false

/-- XOR (`Z` from the result is the spec's decision D28, log entry 5). -/
def Obligations.XorLeavesTheBitwiseXor : Prop :=
  ∀ d a b : RegIndex,
    encode (.xor (regOf d) (regOf a) (regOf b))
      = .ok (0x000008 ||| d.setWidth 24 <<< 8 ||| a.setWidth 24 <<< 12 ||| b.setWidth 24 <<< 16) ∧
    ∀ s : State, s.pc ≠ 0xFFFF → ∃ t, exec (.xor (regOf d) (regOf a) (regOf b)) s = .next t ∧
      LeavesResult s t d ((readReg s a).toNat ^^^ (readReg s b).toNat) false

/-! ## The instructions: ALU with an 8-bit immediate -/

/-- R130, for all registers and immediates. -/
def Obligations.AddiLeavesTheSumModulo256 : Prop :=
  ∀ (d a : RegIndex) (k : Byte),
    encode (.addi (regOf d) (regOf a) (.imm8 k))
      = .ok (0x000044 ||| d.setWidth 24 <<< 8 ||| a.setWidth 24 <<< 12 ||| k.setWidth 24 <<< 16) ∧
    ∀ s : State, s.pc ≠ 0xFFFF → ∃ t, exec (.addi (regOf d) (regOf a) (.imm8 k)) s = .next t ∧
      LeavesResult s t d (((readReg s a).toNat + k.toNat) % 256) (decide ((readReg s a).toNat + k.toNat > 255))

/-- ANDI (`Z` from the result is the spec's decision D28, log entry 5). -/
def Obligations.AndiLeavesTheBitwiseAnd : Prop :=
  ∀ (d a : RegIndex) (k : Byte),
    encode (.andi (regOf d) (regOf a) (.imm8 k))
      = .ok (0x000046 ||| d.setWidth 24 <<< 8 ||| a.setWidth 24 <<< 12 ||| k.setWidth 24 <<< 16) ∧
    ∀ s : State, s.pc ≠ 0xFFFF → ∃ t, exec (.andi (regOf d) (regOf a) (.imm8 k)) s = .next t ∧
      LeavesResult s t d ((readReg s a).toNat &&& k.toNat) false

/-- ORI (`Z` from the result is the spec's decision D28, log entry 5). -/
def Obligations.OriLeavesTheBitwiseOr : Prop :=
  ∀ (d a : RegIndex) (k : Byte),
    encode (.ori (regOf d) (regOf a) (.imm8 k))
      = .ok (0x000047 ||| d.setWidth 24 <<< 8 ||| a.setWidth 24 <<< 12 ||| k.setWidth 24 <<< 16) ∧
    ∀ s : State, s.pc ≠ 0xFFFF → ∃ t, exec (.ori (regOf d) (regOf a) (.imm8 k)) s = .next t ∧
      LeavesResult s t d ((readReg s a).toNat ||| k.toNat) false

/-- XORI (`Z` from the result is the spec's decision D28, log entry 5). -/
def Obligations.XoriLeavesTheBitwiseXor : Prop :=
  ∀ (d a : RegIndex) (k : Byte),
    encode (.xori (regOf d) (regOf a) (.imm8 k))
      = .ok (0x000048 ||| d.setWidth 24 <<< 8 ||| a.setWidth 24 <<< 12 ||| k.setWidth 24 <<< 16) ∧
    ∀ s : State, s.pc ≠ 0xFFFF → ∃ t, exec (.xori (regOf d) (regOf a) (.imm8 k)) s = .next t ∧
      LeavesResult s t d ((readReg s a).toNat ^^^ k.toNat) false

/-! ## The instructions: control transfer -/

/-- R141, its corner cases among them: a target out of bounds, and a jump to its own address. -/
def Obligations.JmpGoesToTheAbsoluteTarget : Prop :=
  ∀ k : BitVec 12,
    encode (.jmp (targetOf k)) = .ok (0x000089 ||| k.setWidth 24 <<< 12) ∧
    (∀ s : State, ∃ t, exec (.jmp (targetOf k)) s = .next t ∧
      LeavesControl s t ⟨true, false⟩ k.toNat s.status ∧
      (s.status = .running → s.progLen ≤ k.toNat →
        step t = .next { t with status := .faulted .pcOutOfBounds t.pc })) ∧
    (∀ (s : State) (w : Word24), s.status = .running → s.pc.toNat = k.toNat → fetch s = some w →
      decode w = .instr (.jmp (targetOf k)) →
      ∀ n, ∃ t, runWith OpMap.default n s = .next (.outOfFuel t) ∧ t.pc = s.pc ∧ t.status = .running)

/-- R142. The clause at `pc = 0xFFFF` is the spec's decision D7 (log entry 5). -/
def Obligations.BzBranchesWhenZeroIsSet : Prop :=
  ∀ k : BitVec 12,
    encode (.bz (targetOf k)) = .ok (0x00008A ||| k.setWidth 24 <<< 12) ∧
    (∀ s : State, s.flags.zero = true → ∃ t, exec (.bz (targetOf k)) s = .next t ∧
      LeavesControl s t s.flags k.toNat s.status ∧
      (s.status = .running → s.progLen ≤ k.toNat →
        step t = .next { t with status := .faulted .pcOutOfBounds t.pc })) ∧
    (∀ s : State, s.flags.zero = false → s.pc ≠ 0xFFFF → ∃ t, exec (.bz (targetOf k)) s = .next t ∧
      LeavesControl s t s.flags (s.pc.toNat + 1) s.status) ∧
    (∀ s : State, s.flags.zero = false → s.pc = 0xFFFF →
      FaultsWith .pcOverflow s (exec (.bz (targetOf k)) s)) ∧
    State.reset.flags.zero = true

/-- R143. The clause at `pc = 0xFFFF` is the spec's decision D7 (log entry 5). -/
def Obligations.BnzBranchesWhenZeroIsClear : Prop :=
  ∀ k : BitVec 12,
    encode (.bnz (targetOf k)) = .ok (0x00008B ||| k.setWidth 24 <<< 12) ∧
    (∀ s : State, s.flags.zero = false → ∃ t, exec (.bnz (targetOf k)) s = .next t ∧
      LeavesControl s t s.flags k.toNat s.status ∧
      (s.status = .running → s.progLen ≤ k.toNat →
        step t = .next { t with status := .faulted .pcOutOfBounds t.pc })) ∧
    (∀ s : State, s.flags.zero = true → s.pc ≠ 0xFFFF → ∃ t, exec (.bnz (targetOf k)) s = .next t ∧
      LeavesControl s t s.flags (s.pc.toNat + 1) s.status) ∧
    (∀ s : State, s.flags.zero = true → s.pc = 0xFFFF →
      FaultsWith .pcOverflow s (exec (.bnz (targetOf k)) s)) ∧
    State.reset.flags.zero = true

/-! ## Frames and whole-machine rules -/

/-- The frame of all sixteen instructions: HALT, NOP, MV, NOT, ADD, SUB, AND, OR, XOR, ADDI, ANDI, ORI, XORI, JMP, BZ, BNZ. -/
def Obligations.ExecChangesOnlyWhatTheInstructionNames : Prop :=
  ∀ (i : Instr) (s t : State), exec i s = .next t →
    (∀ r : RegIndex, i.destination ≠ some r → readReg t r = readReg s r) ∧
    (∀ a, imemRead t a = imemRead s a) ∧ t.progLen = s.progLen ∧
    (i.isBranch = true → t.flags = s.flags) ∧
    (t.status = s.status ∨ (i = .halt ∧ t.status = .halted) ∨ ∃ kind info, t.status = .faulted kind info)

/-- R16: reads, writes, and that only the register write is dropped. -/
def Obligations.RegisterZeroIsHardwired : Prop :=
  (∀ s : State, readReg s 0 = 0) ∧
  (∀ (i : Instr) (s t : State), i.destination = some 0 → exec i s = .next t →
    ∀ r : RegIndex, readReg t r = readReg s r) ∧
  (∀ (i : Instr) (s : State) (d : RegIndex), i.wellFormed = true → i.destination = some 0 → s.pc ≠ 0xFFFF →
    ∃ t u, exec i s = .next t ∧ exec (i.redirect d) s = .next u ∧ t.flags = u.flags ∧
      t.pc.toNat = s.pc.toNat + 1 ∧ t.status = s.status)

/-- `V` is read by no instruction: it influences no `pc`, register, `Z` or status. -/
def Obligations.OverflowFlagIsNeverRead : Prop :=
  ∀ (om : OpMap) (s s' : State), SameButOverflow s s' →
    (∃ t t', stepWith om s = .next t ∧ stepWith om s' = .next t' ∧ SameButOverflow t t') ∧
    (∀ n, ∃ r r', runWith om n s = .next r ∧ runWith om n s' = .next r' ∧ SameButOverflow r.state r'.state)

/-- `Z` is read only by BZ and BNZ; every other instruction overwrites both flags. -/
def Obligations.OnlyBranchesReadTheZeroFlag : Prop :=
  ∀ (i : Instr) (s : State) (f : Flags), i.wellFormed = true → i.isBranch = false → s.pc ≠ 0xFFFF →
    exec i { s with flags := f } = exec i s

/-- Addresses 4096 to 65535 can be reached only by falling through. -/
def Obligations.HighAddressesAreReachedByFallingThrough : Prop :=
  ∀ (om : OpMap) (s t : State), stepWith om s = .next t → 4096 ≤ t.pc.toNat →
    t.pc = s.pc ∨ t.pc.toNat = s.pc.toNat + 1

/-- The runner's fuel never changes a result (the spec's decision D16, log entry 5). -/
def Obligations.MoreFuelGivesTheSameEnd : Prop :=
  ∀ (om : OpMap) (n : Nat) (s t : State),
    (runWith om n s = .next (.ended t) → t.Ended ∧ ∀ m, runWith om (n + m) s = .next (.ended t)) ∧
    (runWith om n s = .next (.outOfFuel t) → t.status = .running)

/-- What the end of a run says (`pc` after HALT and the payload are the spec's decisions D18 and D24, log entry 5). -/
def Obligations.EndedRunsAreExplained : Prop :=
  ∀ (om : OpMap) (s t : State), s.status = .running → RunEndsIn om s t →
    (t.Succeeded → t.flags = ⟨true, false⟩ ∧ ∃ w, fetch t = some w ∧ decodeWith om w = .instr .halt) ∧
    (∀ kind info, t.status = .faulted kind info → FaultExplained om kind info t) ∧
    (t.Succeeded ∨ ∃ kind info, t.status = .faulted kind info)

/-- The two levels of instruction agree (the spec's decision D29, log entry 5). -/
def Obligations.AbstractAndWordLevelsAgree : Prop :=
  ∀ (om : OpMap), om.Injective → ∀ (p : List Instr) (ws : List Word24) (s s' : State),
    encodeProgramWith om p = .ok ws → loadProgram ws s = .ok s' →
      stepWith om s' = stepSource (p.map SourceInstr.instr) s'

/-! ## The assembler and the loader -/

/-- R79, and its consequences: several labels may name one address, a label after the last instruction gets the length, a program
without labels is unchanged with an empty table. That the table is in the order of declaration and its addresses are numbers
never cut to 16 bits is the model's choice (DESIGN CHOICE: log entry 9). -/
def Obligations.StripRecordsTheAddressOfEachLabel : Prop :=
  ∀ p : List SourceInstr,
    ((labelNames p).Nodup → ∃ out table, stripSymbols p = .ok (out, table) ∧
      out = p.filter (fun i => match i with | .label _ => false | .instr _ => true) ∧
      table.map Prod.fst = labelNames p ∧
      ∀ (k : Nat) (n : String), p[k]? = some (.label n) → lookupSymbol table n = some (instrCount (p.take k))) ∧
    (¬ (labelNames p).Nodup → ∃ n, stripSymbols p = .error (.duplicateLabel n) ∧ 2 ≤ (labelNames p).count n)

/-- Pass 2 (that an address above 4095 fails is the spec's decision D21, log entry 5). -/
def Obligations.BranchLabelsBecomeTheirAddresses : Prop :=
  ∀ (t : SymbolTable) (p : List SourceInstr),
    (∀ out, replaceSymbols t p = .ok out → out.length = p.length ∧
      ∀ (k : Nat) (i' : Instr), out[k]? = some i' → ∃ i, p[k]? = some (.instr i) ∧ i'.mnemonic = i.mnemonic ∧
        (i.mnemonic.format = .j → ∀ n, i.operands = [.label n] →
          ∃ a, lookupSymbol t n = some a ∧ a ≤ 4095 ∧ i'.operands = [.imm12 (BitVec.ofNat 16 a)]) ∧
        ((i.mnemonic.format ≠ .j ∨ ∀ n, i.operands ≠ [.label n]) → i' = i)) ∧
    (∀ n, SourceInstr.label n ∈ p → ∃ e, replaceSymbols t p = .error e) ∧
    (∀ (i : Instr) (n : String), SourceInstr.instr i ∈ p → i.mnemonic.format = .j → i.operands = [.label n] →
      (∀ a, lookupSymbol t n = some a → 4095 < a) → ∃ e, replaceSymbols t p = .error e)

/-- The output of `compile` is a resolved program. -/
def Obligations.CompiledProgramsAreResolvedAndWellShaped : Prop :=
  ∀ (source : String) (p : List Instr), compile source = .ok p → ∀ i ∈ p,
    i.wellShaped = true ∧ (∀ t : BitVec 16, Operand.imm12 t ∈ i.operands → t.toNat ≤ 4095) ∧
    ((∀ n ∈ i.checkedRegisters, n.toNat ≤ 15) → i.wellFormed = true)

/-- R71: skipped entirely; `;` starts a line comment. -/
def Obligations.BlankAndCommentLinesOccupyNoAddress : Prop :=
  (∀ blanks rest : List Char, blanks.all isBlank = true →
    parseLine blanks = .ok none ∧ parseLine (blanks ++ ';' :: rest) = .ok none) ∧
  (∀ (n : Nat) (line : List Char) (lines : List (List Char)), parseLine line = .ok none →
    parseLinesFrom n (line :: lines) = parseLinesFrom (n + 1) lines)

/-- A failed line fails the program, as R77 says. That the problem is a name instead of a text, and `unknownMnemonic` for an unknown
mnemonic, is the model's choice (DESIGN CHOICE: log entry 10). -/
def Obligations.FirstFailedLineFailsTheProgram : Prop :=
  (∀ (before : List (List Char)) (line : List Char) (after : List (List Char)) (e : ParseProblem),
    (∀ l ∈ before, ∃ item, parseLine l = .ok item) → parseLine line = .error e →
    parseLinesFrom 1 (before ++ line :: after) = .error ⟨before.length + 1, e⟩) ∧
  (∀ lines : List (List Char), (∀ l ∈ lines, ∃ item, parseLine l = .ok item) →
    ∃ p, parseLinesFrom 1 lines = .ok p) ∧
  (∀ line : List Char, (trim (stripComment line)).isEmpty = false →
    (trim (stripComment line)).getLast? ≠ some ':' →
    mnemonicOfText ((trim (stripComment line)).takeWhile (fun c => !isBlank c)) = none →
    parseLine line = .error .unknownMnemonic)

/-- Containers and their bytes (the spec's decision D5, log entry 5). -/
def Obligations.ProgramFilesRoundTrip : Prop :=
  (∀ (order : Endian) (ws : List Word24),
    containersOfFile order (programFile order ws) = .ok (ws.map containerOfWord) ∧
    (programFile order ws).length = 4 * ws.length ∧
    wordsOfContainers (ws.map containerOfWord) = .ok ws) ∧
  (∀ c : Container, 2 ^ 24 ≤ c.toNat → wordOfContainer c = .error (.containerTooWide c)) ∧
  (∀ c : Container, c.toNat < 2 ^ 24 → ∃ w, wordOfContainer c = .ok w ∧ w.toNat = c.toNat)
end

