-- ==== Sys2Proof/Laws/State.lean ====
section
/-! SUPPORT. One lemma for each field of each named update of the state. -/

namespace Sys2Proof.Machine

/-! ## Reset -/

@[simp] theorem reset_pc : State.reset.pc = 0 := rfl

@[simp] theorem reset_regs : State.reset.regs = Vector.replicate 15 0 := rfl

@[simp] theorem reset_flags : State.reset.flags = ⟨true, false⟩ := rfl

@[simp] theorem reset_status : State.reset.status = .running := rfl

@[simp] theorem reset_imem : State.reset.imem = [] := rfl

@[simp] theorem reset_progLen : State.reset.progLen = 0 := rfl

/-! ## A reset edge -/

@[simp] theorem resetCore_pc (s : State) : (resetCore s).pc = 0 := rfl

@[simp] theorem resetCore_regs (s : State) : (resetCore s).regs = Vector.replicate 15 0 := rfl

@[simp] theorem resetCore_flags (s : State) : (resetCore s).flags = ⟨true, false⟩ := rfl

@[simp] theorem resetCore_status (s : State) : (resetCore s).status = .running := rfl

@[simp] theorem resetCore_imem (s : State) : (resetCore s).imem = s.imem := rfl

@[simp] theorem resetCore_progLen (s : State) : (resetCore s).progLen = s.progLen := rfl

/-! ## Taking a fault -/

@[simp] theorem raise_pc (kind : Fault) (info : BitVec 16) (s : State) : (raise kind info s).pc = s.pc := rfl

@[simp] theorem raise_regs (kind : Fault) (info : BitVec 16) (s : State) : (raise kind info s).regs = s.regs := rfl

@[simp] theorem raise_flags (kind : Fault) (info : BitVec 16) (s : State) : (raise kind info s).flags = s.flags := rfl

@[simp] theorem raise_status (kind : Fault) (info : BitVec 16) (s : State) : (raise kind info s).status = .faulted kind info := rfl

@[simp] theorem raise_imem (kind : Fault) (info : BitVec 16) (s : State) : (raise kind info s).imem = s.imem := rfl

@[simp] theorem raise_progLen (kind : Fault) (info : BitVec 16) (s : State) : (raise kind info s).progLen = s.progLen := rfl

/-! ## Placing a word, loading from a launch state -/

@[simp] theorem placeWord_pc (s : State) (w : Word24) :
    (placeWord s w).pc = s.pc := rfl

@[simp] theorem placeWord_regs (s : State) (w : Word24) :
    (placeWord s w).regs = s.regs := rfl

@[simp] theorem placeWord_flags (s : State) (w : Word24) :
    (placeWord s w).flags = s.flags := rfl

@[simp] theorem placeWord_status (s : State) (w : Word24) :
    (placeWord s w).status = .running := rfl

@[simp] theorem placeWord_imem (s : State) (w : Word24) :
    (placeWord s w).imem = Memory.write s.imem s.pc.toNat w := rfl

@[simp] theorem placeWord_progLen (s : State) (w : Word24) :
    (placeWord s w).progLen = max s.progLen (s.pc.toNat + 1) := rfl

@[simp] theorem launch_pc (l : Launch) (s : State) : (launch l s).pc = l.pc := rfl

@[simp] theorem launch_regs (l : Launch) (s : State) : (launch l s).regs = l.regs := rfl

@[simp] theorem launch_flags (l : Launch) (s : State) : (launch l s).flags = l.flags := rfl

@[simp] theorem launch_status (l : Launch) (s : State) : (launch l s).status = .running := rfl

@[simp] theorem launch_imem (l : Launch) (s : State) : (launch l s).imem = s.imem := rfl

@[simp] theorem launch_progLen (l : Launch) (s : State) : (launch l s).progLen = s.progLen := rfl

/-! ## Writing a register, and the data part of a commit -/

@[simp] theorem writeReg_pc (s : State) (i : RegIndex) (v : Byte) : (writeReg s i v).pc = s.pc := by
  unfold writeReg
  split <;> rfl

@[simp] theorem writeReg_flags (s : State) (i : RegIndex) (v : Byte) : (writeReg s i v).flags = s.flags := by
  unfold writeReg
  split <;> rfl

@[simp] theorem writeReg_status (s : State) (i : RegIndex) (v : Byte) : (writeReg s i v).status = s.status := by
  unfold writeReg
  split <;> rfl

@[simp] theorem writeReg_imem (s : State) (i : RegIndex) (v : Byte) : (writeReg s i v).imem = s.imem := by
  unfold writeReg
  split <;> rfl

@[simp] theorem writeReg_progLen (s : State) (i : RegIndex) (v : Byte) : (writeReg s i v).progLen = s.progLen := by
  unfold writeReg
  split <;> rfl

@[simp] theorem commitData_pc (e : Effect) (s : State) : (commitData e s).pc = s.pc := by
  unfold commitData
  split <;> simp

@[simp] theorem commitData_flags (e : Effect) (s : State) : (commitData e s).flags = e.flags := by
  unfold commitData
  split <;> rfl

@[simp] theorem commitData_status (e : Effect) (s : State) : (commitData e s).status = s.status := by
  unfold commitData
  split <;> simp

@[simp] theorem commitData_imem (e : Effect) (s : State) : (commitData e s).imem = s.imem := by
  unfold commitData
  split <;> simp

@[simp] theorem commitData_progLen (e : Effect) (s : State) : (commitData e s).progLen = s.progLen := by
  unfold commitData
  split <;> simp

end Sys2Proof.Machine
end

