-- ==== Sys2Proof/Laws/Memory.lean ====
section
/-! SUPPORT. The laws of the instruction memory: read after write, and that every operation keeps the canonical form. -/

namespace Sys2Proof.Machine

@[simp] theorem Memory.read_nil (a : Nat) : Memory.read [] a = unlistedWord := rfl

theorem Memory.read_cons (b : Nat) (w : Word24) (m : Memory) (a : Nat) :
    Memory.read ((b, w) :: m) a = if b = a then w else Memory.read m a := rfl

/-- An address that is listed nowhere reads as the unlisted word. -/
theorem Memory.read_of_forall_ne {m : Memory} {a : Nat} (h : ∀ c ∈ m, c.1 ≠ a) :
    Memory.read m a = unlistedWord := by
  induction m with
  | nil => rfl
  | cons c m ih =>
    obtain ⟨b, v⟩ := c
    rw [Memory.read_cons, if_neg (h (b, v) (by simp)), ih (fun c hc => h c (by simp [hc]))]

/-- The canonical form of a list with a head. -/
theorem Memory.wf_cons {a : Nat} {w : Word24} {m : Memory} :
    Memory.wf ((a, w) :: m) = true ↔ w ≠ unlistedWord ∧ (∀ c ∈ m, a < c.1) ∧ Memory.wf m = true := by
  simp [Memory.wf, and_assoc]

/-- In canonical form the tail lists no address at or below the head's. -/
theorem Memory.read_tail_of_le {a b : Nat} {w : Word24} {m : Memory} (h : Memory.wf ((b, w) :: m) = true)
    (hab : a ≤ b) : Memory.read m a = unlistedWord := by
  have hm := (Memory.wf_cons.mp h).2.1
  exact Memory.read_of_forall_ne fun c hc => by have := hm c hc; omega

/-- Reading the address written gives the word written. -/
theorem Memory.read_write_same {m : Memory} (h : Memory.wf m = true) (a : Nat) (w : Word24) :
    Memory.read (Memory.write m a w) a = w := by
  induction m with
  | nil =>
    unfold Memory.write
    split <;> simp_all [Memory.read_cons]
  | cons c m ih =>
    obtain ⟨b, v⟩ := c
    have htail := fun hab => Memory.read_tail_of_le (a := a) h hab
    have hm := (Memory.wf_cons.mp h).2.2
    unfold Memory.write
    split
    · split
      · subst_vars
        rw [Memory.read_cons, if_neg (by omega), htail (by omega)]
      · rw [Memory.read_cons, if_pos rfl]
    · split
      · subst_vars
        split
        · subst_vars; exact htail (le_refl _)
        · rw [Memory.read_cons, if_pos rfl]
      · rw [Memory.read_cons, if_neg (by omega), ih hm]

/-- Reading another address gives what it gave before. -/
theorem Memory.read_write_other (m : Memory) {a b : Nat} (w : Word24) (h : b ≠ a) :
    Memory.read (Memory.write m a w) b = Memory.read m b := by
  induction m with
  | nil =>
    unfold Memory.write
    split <;> simp [Memory.read_cons, h.symm]
  | cons c m ih =>
    obtain ⟨d, v⟩ := c
    unfold Memory.write
    split
    · split
      · rfl
      · rw [Memory.read_cons, if_neg h.symm]
    · split
      · subst_vars
        split <;> simp [Memory.read_cons, h.symm]
      · rw [Memory.read_cons, Memory.read_cons, ih]

/-- What a write lists: the written address and the addresses listed before. -/
theorem Memory.mem_write {m : Memory} {a : Nat} {w : Word24} {c : Nat × Word24} (h : c ∈ Memory.write m a w) :
    c = (a, w) ∨ c ∈ m := by
  induction m with
  | nil =>
    unfold Memory.write at h
    split at h <;> simp_all
  | cons d m ih =>
    obtain ⟨b, v⟩ := d
    unfold Memory.write at h
    split at h
    · split at h
      · exact Or.inr h
      · rcases List.mem_cons.mp h with h | h
        · exact Or.inl h
        · exact Or.inr h
    · split at h
      · split at h
        · exact Or.inr (List.mem_cons_of_mem _ h)
        · rcases List.mem_cons.mp h with h | h
          · exact Or.inl h
          · exact Or.inr (List.mem_cons_of_mem _ h)
      · rcases List.mem_cons.mp h with h | h
        · exact Or.inr (by simp [h])
        · rcases ih h with h | h
          · exact Or.inl h
          · exact Or.inr (List.mem_cons_of_mem _ h)

/-- A write keeps the canonical form. -/
theorem Memory.wf_write {m : Memory} (h : Memory.wf m = true) (a : Nat) (w : Word24) :
    Memory.wf (Memory.write m a w) = true := by
  induction m with
  | nil =>
    unfold Memory.write
    split <;> simp_all [Memory.wf]
  | cons d m ih =>
    obtain ⟨b, v⟩ := d
    obtain ⟨hv, hlt, hm⟩ := Memory.wf_cons.mp h
    unfold Memory.write
    split
    · split
      · exact h
      · refine Memory.wf_cons.mpr ⟨‹_›, fun c hc => ?_, h⟩
        rcases List.mem_cons.mp hc with rfl | hc
        · assumption
        · have := hlt c hc; omega
    · split
      · subst_vars
        split
        · exact hm
        · exact Memory.wf_cons.mpr ⟨‹_›, hlt, hm⟩
      · refine Memory.wf_cons.mpr ⟨hv, fun c hc => ?_, ih hm⟩
        rcases Memory.mem_write hc with rfl | hc
        · simp only; omega
        · exact hlt c hc

/-- A write below a bound keeps every listed address below it. -/
theorem Memory.below_write {m : Memory} {n a : Nat} (h : Memory.below m n = true) (ha : a < n) (w : Word24) :
    Memory.below (Memory.write m a w) n = true := by
  simp only [Memory.below, List.all_eq_true, decide_eq_true_eq] at h ⊢
  intro c hc
  rcases Memory.mem_write hc with rfl | hc
  · exact ha
  · exact h c hc

/-- The addresses a list of words is laid out at. -/
theorem Memory.mem_ofWords {ws : List Word24} {a : Nat} {c : Nat × Word24} (h : c ∈ Memory.ofWords a ws) :
    a ≤ c.1 ∧ c.1 < a + ws.length := by
  induction ws generalizing a with
  | nil => simp [Memory.ofWords] at h
  | cons w ws ih =>
    rw [List.length_cons]
    unfold Memory.ofWords at h
    split at h
    · have := ih h; omega
    · rcases List.mem_cons.mp h with rfl | h
      · simp
      · have := ih h; omega

/-- A program laid out in memory is in canonical form. -/
theorem Memory.wf_ofWords (a : Nat) (ws : List Word24) : Memory.wf (Memory.ofWords a ws) = true := by
  induction ws generalizing a with
  | nil => rfl
  | cons w ws ih =>
    unfold Memory.ofWords
    split
    · exact ih _
    · exact Memory.wf_cons.mpr ⟨‹_›, fun c hc => by have := Memory.mem_ofWords hc; omega, ih _⟩

/-- A program laid out in memory reads back as its words. -/
theorem Memory.read_ofWords (ws : List Word24) (a k : Nat) :
    Memory.read (Memory.ofWords a ws) (a + k) = (ws[k]?).getD unlistedWord := by
  induction ws generalizing a k with
  | nil => simp [Memory.ofWords]
  | cons w ws ih =>
    have hnone : Memory.read (Memory.ofWords (a + 1) ws) a = unlistedWord :=
      Memory.read_of_forall_ne fun c hc => by have := Memory.mem_ofWords hc; omega
    have htail := ih (a + 1)
    unfold Memory.ofWords
    cases k with
    | zero =>
      split
      · subst_vars; simpa using hnone
      · simp [Memory.read_cons]
    | succ k =>
      have hk : a + (k + 1) = a + 1 + k := by omega
      split
      · rw [hk, htail]; simp
      · rw [Memory.read_cons, if_neg (by omega), hk, htail]; simp

/-- The state after reset has its memory in canonical form. -/
theorem Memory.wf_reset : Memory.wf State.reset.imem = true := rfl

/-- Loading a program that fits gives a state with its memory in order. -/
theorem loadProgram_memoryOk {ws : List Word24} {s t : State} (h : loadProgram ws s = .ok t) :
    t.memoryOk = true := by
  unfold loadProgram at h
  split at h
  · cases h
    simp only [State.memoryOk, Memory.wf_ofWords, Bool.true_and, Bool.and_eq_true, decide_eq_true_eq]
    refine ⟨?_, ‹_›⟩
    simp only [Memory.below, List.all_eq_true, decide_eq_true_eq]
    intro c hc
    have := Memory.mem_ofWords hc
    omega
  · cases h

/-- Placing a word keeps the memory in order. -/
theorem placeWord_memoryOk {s : State} (h : s.memoryOk = true) (w : Word24) :
    (placeWord s w).memoryOk = true := by
  simp only [State.memoryOk, Bool.and_eq_true, decide_eq_true_eq] at h ⊢
  obtain ⟨⟨hwf, hbelow⟩, hlen⟩ := h
  have hpc := s.pc.isLt
  refine ⟨⟨Memory.wf_write hwf _ _, Memory.below_write ?_ ?_ _⟩, ?_⟩
  · simp only [Memory.below, List.all_eq_true, decide_eq_true_eq] at hbelow ⊢
    intro c hc
    have := hbelow c hc
    simp only [placeWord_progLen]
    omega
  · simp only [placeWord_progLen]; omega
  · simp only [placeWord_progLen, Config.maxProgLen] at hlen ⊢; omega

/-- What an address reads as depends on the memory and its length only. -/
theorem imemRead_congr {s t : State} (hm : t.imem = s.imem) (hl : t.progLen = s.progLen) (a : Nat) :
    imemRead t a = imemRead s a := by
  unfold imemRead
  rw [hm, hl]

end Sys2Proof.Machine
end

