-- ==== Sys2Proof/Laws/Registers.lean ====
section
/-! SUPPORT. The laws of register access (40_execution_cycle.md rules R94, R95). -/

namespace Sys2Proof.Machine

@[simp] theorem readReg_zero (s : State) : readReg s 0#4 = 0#8 := by simp [readReg]

/-- What a register reads as depends on the cells only. -/
theorem readReg_congr {s t : State} (h : t.regs = s.regs) (i : RegIndex) : readReg t i = readReg s i := by
  unfold readReg
  split
  · rfl
  · simp only [h]

@[simp] theorem readReg_resetCore (s : State) (i : RegIndex) : readReg (resetCore s) i = 0#8 := by
  unfold readReg
  split <;> simp

@[simp] theorem readReg_raise (kind : Fault) (info : BitVec 16) (s : State) (i : RegIndex) :
    readReg (raise kind info s) i = readReg s i := rfl

@[simp] theorem writeReg_zero (s : State) (v : Byte) : writeReg s 0#4 v = s := by simp [writeReg]

/-- A read after a write: the value at the register written, unless that is register 0; any other register as before. -/
theorem readReg_writeReg (s : State) (d : RegIndex) (v : Byte) (i : RegIndex) :
    readReg (writeReg s d v) i = if i = d ∧ i ≠ 0 then v else readReg s i := by
  by_cases hi : i = 0
  · subst hi; simp
  · by_cases hd : d = 0
    · subst hd; simp
    · have hi' : 0 < i.toNat := by
        rcases Nat.eq_zero_or_pos i.toNat with h | h
        · exact absurd (BitVec.eq_of_toNat_eq (by simpa using h)) hi
        · exact h
      have hd' : 0 < d.toNat := by
        rcases Nat.eq_zero_or_pos d.toNat with h | h
        · exact absurd (BitVec.eq_of_toNat_eq (by simpa using h)) hd
        · exact h
      have heq : d.toNat - 1 = i.toNat - 1 ↔ i = d := by
        constructor
        · intro h; exact BitVec.eq_of_toNat_eq (by omega)
        · intro h; rw [h]
      simp only [readReg, writeReg, hi, hd, dite_false, Vector.getElem_set, heq, ne_eq, not_false_eq_true, and_true]

/-- The data part of a commit, register by register. -/
theorem readReg_commitData (e : Effect) (s : State) (i : RegIndex) :
    readReg (commitData e s) i =
      match e.write with
      | none => readReg s i
      | some (d, v) => if i = d ∧ i ≠ 0 then v else readReg s i := by
  unfold commitData
  rcases e.write with _ | ⟨d, v⟩
  · exact readReg_congr rfl i
  · exact (readReg_congr rfl i).trans (readReg_writeReg s d v i)

end Sys2Proof.Machine
end

