-- ==== Sys2Proof/Laws/Commit.lean ====
section
/-! SUPPORT. What the commit of a step can do (40_execution_cycle.md rules R91, R100, R101), said once. -/

namespace Sys2Proof.Machine

/-- Below the top address the successor is the next address. -/
theorem seqPc_of_ne_top {pc : Addr} (h : pc ≠ 0xFFFF) : ∃ p, seqPc pc = some p ∧ p.toNat = pc.toNat + 1 := by
  have hlt := pc.isLt
  have hne : pc.toNat ≠ 65535 := fun hc => h (BitVec.eq_of_toNat_eq (by simpa using hc))
  refine ⟨BitVec.ofNat 16 (pc.toNat + 1), ?_, ?_⟩
  · unfold seqPc; rw [if_pos (by omega)]
  · rw [BitVec.toNat_ofNat, Nat.mod_eq_of_lt (by omega)]

/-- At the top address there is no successor. -/
@[simp] theorem seqPc_top : seqPc 65535#16 = none := rfl

/-- A successor that exists is the next address. -/
theorem seqPc_some {pc p : Addr} (h : seqPc pc = some p) : p.toNat = pc.toNat + 1 := by
  unfold seqPc at h
  split at h
  · cases h
    rw [BitVec.toNat_ofNat, Nat.mod_eq_of_lt (by omega)]
  · cases h

/-- Only the top address has no successor. -/
theorem seqPc_none {pc : Addr} (h : seqPc pc = none) : pc = 0xFFFF := by
  have hlt := pc.isLt
  unfold seqPc at h
  split at h
  · cases h
  · exact BitVec.eq_of_toNat_eq (by simp; omega)

theorem commit_stop {e : Effect} (h : e.next = .stop) (s : State) :
    commit e s = { commitData e s with status := .halted } := by
  unfold commit; rw [h]

theorem commit_target {e : Effect} {t : Addr} (h : e.next = .target t) (s : State) :
    commit e s = { commitData e s with pc := t } := by
  unfold commit; rw [h]

/-- A sequential commit below the top address. -/
theorem commit_sequential {e : Effect} (h : e.next = .sequential) {s : State} (hpc : s.pc ≠ 0xFFFF) :
    ∃ p, commit e s = { commitData e s with pc := p } ∧ p.toNat = s.pc.toNat + 1 := by
  obtain ⟨p, hp, hn⟩ := seqPc_of_ne_top hpc
  exact ⟨p, by unfold commit; rw [h]; simp only [hp], hn⟩

/-- A sequential commit at the top address raises `PcOverflow` and does nothing else. -/
theorem commit_top {e : Effect} (h : e.next = .sequential) {s : State} (hpc : s.pc = 0xFFFF) :
    commit e s = raise .pcOverflow s.pc s := by
  unfold commit
  rw [h]
  simp [hpc]

/-- Everything a commit can do. -/
theorem commit_cases (e : Effect) (s : State) :
    (e.next = .stop ∧ commit e s = { commitData e s with status := .halted }) ∨
    (∃ t, e.next = .target t ∧ commit e s = { commitData e s with pc := t }) ∨
    (e.next = .sequential ∧ ∃ p, commit e s = { commitData e s with pc := p } ∧ p.toNat = s.pc.toNat + 1) ∨
    (e.next = .sequential ∧ s.pc = 0xFFFF ∧ commit e s = raise .pcOverflow s.pc s) := by
  cases h : e.next with
  | stop => exact .inl ⟨rfl, commit_stop h s⟩
  | target t => exact .inr (.inl ⟨t, rfl, commit_target h s⟩)
  | sequential =>
    by_cases hpc : s.pc = 0xFFFF
    · exact .inr (.inr (.inr ⟨rfl, hpc, commit_top h hpc⟩))
    · exact .inr (.inr (.inl ⟨rfl, commit_sequential h hpc⟩))

@[simp] theorem commit_imem (e : Effect) (s : State) : (commit e s).imem = s.imem := by
  rcases commit_cases e s with ⟨-, h⟩ | ⟨t, -, h⟩ | ⟨-, p, h, -⟩ | ⟨-, -, h⟩ <;> simp [h]

@[simp] theorem commit_progLen (e : Effect) (s : State) : (commit e s).progLen = s.progLen := by
  rcases commit_cases e s with ⟨-, h⟩ | ⟨t, -, h⟩ | ⟨-, p, h, -⟩ | ⟨-, -, h⟩ <;> simp [h]

end Sys2Proof.Machine
end

