-- ==== Sys2Proof/Laws/Encode.lean ====
section
/-! SUPPORT. The encoder's words in closed form, and the inverse of an opcode map (30_encoding.md rules R54, R55, R63). -/

namespace Sys2Proof

/-! ## Opcode maps -/

theorem Mnemonic.mem_all (m : Mnemonic) : m ∈ Mnemonic.all := by cases m <;> decide

/-- A pair that is assigned selects a mnemonic with that pair. -/
theorem OpMap.code_of_inverse {om : OpMap} {c : OpCode} {m : Mnemonic} (h : om.inverse c = some m) : om.code m = c := by
  simpa using List.find?_some h

/-- With an injective map the pair of a mnemonic selects that mnemonic. -/
theorem OpMap.inverse_code {om : OpMap} (h : om.Injective) (m : Mnemonic) : om.inverse (om.code m) = some m := by
  cases hi : om.inverse (om.code m) with
  | none =>
    have := List.find?_eq_none.mp hi m (Mnemonic.mem_all m)
    simp at this
  | some n => rw [h n m (OpMap.code_of_inverse hi)]

/-- The default map is injective, as rule R5 asks. -/
theorem OpMap.default_injective : OpMap.default.Injective := by
  intro m n
  cases m <;> cases n <;> decide

/-! ## Setting fields -/

/-- A value that fits is put in. -/
theorem setField_ok {width v : Nat} (h : v < 2 ^ width) (w : Word24) (lo : Nat) :
    setField w lo width v
      = .ok ((w &&& ~~~(BitVec.ofNat 24 ((2 ^ width - 1) <<< lo))) ||| BitVec.ofNat 24 (v <<< lo)) := by
  unfold setField
  rw [if_neg (by omega)]

theorem setField_overflow {width v : Nat} (h : 2 ^ width ≤ v) (w : Word24) (lo : Nat) :
    setField w lo width v = .error .overflow := by
  unfold setField
  rw [if_pos h]

@[simp] theorem setFields_nil (w : Word24) : setFields w [] = .ok w := rfl

theorem setFields_cons_ok {width v : Nat} (h : v < 2 ^ width) (w : Word24) (lo : Nat) (fs : List (Nat × Nat × Nat)) :
    setFields w ((lo, width, v) :: fs)
      = setFields ((w &&& ~~~(BitVec.ofNat 24 ((2 ^ width - 1) <<< lo))) ||| BitVec.ofNat 24 (v <<< lo)) fs := by
  simp only [setFields, setField_ok h]

theorem setFields_cons_overflow {width v : Nat} (h : 2 ^ width ≤ v) (w : Word24) (lo : Nat)
    (fs : List (Nat × Nat × Nat)) : setFields w ((lo, width, v) :: fs) = .error .overflow := by
  simp only [setFields, setField_overflow h]

/-- The bits of a word after a value that fits is put into a field: the value's in the field, the word's elsewhere. -/
theorem getLsbD_put {width v : Nat} (h : v < 2 ^ width) (w : Word24) (lo : Nat) {k : Nat} (hk : k < 24) :
    ((w &&& ~~~(BitVec.ofNat 24 ((2 ^ width - 1) <<< lo))) ||| BitVec.ofNat 24 (v <<< lo)).getLsbD k
      = if lo ≤ k ∧ k < lo + width then v.testBit (k - lo) else w.getLsbD k := by
  have hv : ∀ j, width ≤ j → v.testBit j = false := fun j hj =>
    Nat.testBit_lt_two_pow (lt_of_lt_of_le h (Nat.pow_le_pow_right (by omega) hj))
  simp only [BitVec.getLsbD_or, BitVec.getLsbD_and, BitVec.getLsbD_not, BitVec.getLsbD_ofNat, Nat.testBit_shiftLeft,
    Nat.testBit_two_pow_sub_one, hk, decide_true, Bool.true_and]
  by_cases h1 : lo ≤ k
  · by_cases h2 : k < lo + width
    · have : k - lo < width := by omega
      simp [h1, h2, this]
    · have : ¬ k - lo < width := by omega
      simp [h1, h2, this, hv (k - lo) (by omega)]
  · simp [h1]

/-- The same for a value held in a bit vector. -/
theorem getLsbD_putBits {width n : Nat} {v : BitVec n} (h : v.toNat < 2 ^ width) (w : Word24) (lo : Nat) {k : Nat}
    (hk : k < 24) :
    ((w &&& ~~~(BitVec.ofNat 24 ((2 ^ width - 1) <<< lo))) ||| BitVec.ofNat 24 (v.toNat <<< lo)).getLsbD k
      = if lo ≤ k ∧ k < lo + width then v.getLsbD (k - lo) else w.getLsbD k := by
  rw [getLsbD_put h w lo hk]
  rfl

/-- The first two fields of every word: `opcode` and `funct`. -/
def selectorWord (c : OpCode) : Word24 := c.opcode.setWidth 24 ||| c.funct.setWidth 24 <<< 6

theorem setFields_selector (c : OpCode) (fs : List (Nat × Nat × Nat)) :
    setFields 0 ((0, 6, c.opcode.toNat) :: (6, 2, c.funct.toNat) :: fs) = setFields (selectorWord c) fs := by
  rw [setFields_cons_ok (by simpa using c.opcode.isLt), setFields_cons_ok (by simpa using c.funct.isLt)]
  congr 1
  apply BitVec.eq_of_getLsbD_eq
  intro k hk
  rw [getLsbD_putBits (by simpa using c.funct.isLt) _ _ hk, getLsbD_putBits (by simpa using c.opcode.isLt) _ _ hk]
  interval_cases k <;> simp [selectorWord]

/-! ## The words of each format -/

theorem encodeBlock_n (om : OpMap) {m : Mnemonic} (hm : m.format = .n) (d a b k : Byte) (t : BitVec 16) :
    encodeBlock om m d a b k t = .ok (selectorWord (om.code m)) := by
  unfold encodeBlock
  rw [setFields_selector]
  simp [operandFields, hm]

/-- Register indices that exist, as the encoder sees them. -/
theorem regIndex_toNat_lt (i : RegIndex) : (i.setWidth 8).toNat < 2 ^ 4 := by
  have := i.isLt
  rw [BitVec.toNat_setWidth, Nat.mod_eq_of_lt (by omega)]
  omega

theorem encodeBlock_rr (om : OpMap) {m : Mnemonic} (hm : m.format = .rr) (d a : RegIndex) (b k : Byte) (t : BitVec 16) :
    encodeBlock om m (d.setWidth 8) (a.setWidth 8) b k t
      = .ok (selectorWord (om.code m) ||| d.setWidth 24 <<< 8 ||| a.setWidth 24 <<< 12) := by
  unfold encodeBlock
  rw [setFields_selector]
  simp only [operandFields, hm]
  rw [setFields_cons_ok (regIndex_toNat_lt d), setFields_cons_ok (regIndex_toNat_lt a), setFields_nil]
  congr 1
  apply BitVec.eq_of_getLsbD_eq
  intro j hj
  rw [getLsbD_putBits (regIndex_toNat_lt a) _ _ hj, getLsbD_putBits (regIndex_toNat_lt d) _ _ hj]
  interval_cases j <;> simp [selectorWord]

theorem encodeBlock_rrr (om : OpMap) {m : Mnemonic} (hm : m.format = .rrr) (d a b : RegIndex) (k : Byte)
    (t : BitVec 16) :
    encodeBlock om m (d.setWidth 8) (a.setWidth 8) (b.setWidth 8) k t
      = .ok (selectorWord (om.code m) ||| d.setWidth 24 <<< 8 ||| a.setWidth 24 <<< 12 ||| b.setWidth 24 <<< 16) := by
  unfold encodeBlock
  rw [setFields_selector]
  simp only [operandFields, hm]
  rw [setFields_cons_ok (regIndex_toNat_lt d), setFields_cons_ok (regIndex_toNat_lt a),
    setFields_cons_ok (regIndex_toNat_lt b), setFields_nil]
  congr 1
  apply BitVec.eq_of_getLsbD_eq
  intro j hj
  rw [getLsbD_putBits (regIndex_toNat_lt b) _ _ hj, getLsbD_putBits (regIndex_toNat_lt a) _ _ hj,
    getLsbD_putBits (regIndex_toNat_lt d) _ _ hj]
  interval_cases j <;> simp [selectorWord]

theorem encodeBlock_i (om : OpMap) {m : Mnemonic} (hm : m.format = .i) (d a : RegIndex) (b k : Byte) (t : BitVec 16) :
    encodeBlock om m (d.setWidth 8) (a.setWidth 8) b k t
      = .ok (selectorWord (om.code m) ||| d.setWidth 24 <<< 8 ||| a.setWidth 24 <<< 12 ||| k.setWidth 24 <<< 16) := by
  unfold encodeBlock
  rw [setFields_selector]
  simp only [operandFields, hm]
  rw [setFields_cons_ok (regIndex_toNat_lt d), setFields_cons_ok (regIndex_toNat_lt a),
    setFields_cons_ok (by simpa using k.isLt), setFields_nil]
  congr 1
  apply BitVec.eq_of_getLsbD_eq
  intro j hj
  rw [getLsbD_putBits (by simpa using k.isLt) _ _ hj, getLsbD_putBits (regIndex_toNat_lt a) _ _ hj,
    getLsbD_putBits (regIndex_toNat_lt d) _ _ hj]
  interval_cases j <;> simp [selectorWord]

theorem target_toNat_lt (k : BitVec 12) : (k.setWidth 16).toNat < 2 ^ 12 := by
  have := k.isLt
  rw [BitVec.toNat_setWidth, Nat.mod_eq_of_lt (by omega)]
  omega

theorem encodeBlock_j (om : OpMap) {m : Mnemonic} (hm : m.format = .j) (d a b k : Byte) (t : BitVec 12) :
    encodeBlock om m d a b k (t.setWidth 16) = .ok (selectorWord (om.code m) ||| t.setWidth 24 <<< 12) := by
  unfold encodeBlock
  rw [setFields_selector]
  simp only [operandFields, hm]
  rw [setFields_cons_ok (target_toNat_lt t), setFields_nil]
  congr 1
  apply BitVec.eq_of_getLsbD_eq
  intro j hj
  rw [getLsbD_putBits (target_toNat_lt t) _ _ hj]
  interval_cases j <;> simp [selectorWord]

end Sys2Proof
end

