-- ==== Sys2Proof/Laws/Flags.lean ====
section
/-! SUPPORT. The ALU's results as numbers (40_execution_cycle.md rules R98, R99). -/

namespace Sys2Proof.Machine

@[simp] theorem alu_pass_toNat (a b : Byte) : (alu .pass a b).r.toNat = a.toNat := rfl

@[simp] theorem alu_not_toNat (a b : Byte) : (alu .not a b).r.toNat = 255 - a.toNat := by
  have := a.isLt
  simp only [alu, BitVec.toNat_ofNat]
  omega

@[simp] theorem alu_add_toNat (a b : Byte) : (alu .add a b).r.toNat = (a.toNat + b.toNat) % 256 := by
  simp [alu]

@[simp] theorem alu_sub_toNat (a b : Byte) : (alu .sub a b).r.toNat = (a.toNat + 256 - b.toNat) % 256 := by
  simp [alu]

@[simp] theorem alu_and_toNat (a b : Byte) : (alu .and a b).r.toNat = a.toNat &&& b.toNat := by simp [alu]

@[simp] theorem alu_or_toNat (a b : Byte) : (alu .or a b).r.toNat = a.toNat ||| b.toNat := by simp [alu]

@[simp] theorem alu_xor_toNat (a b : Byte) : (alu .xor a b).r.toNat = a.toNat ^^^ b.toNat := by simp [alu]

@[simp] theorem alu_pass_carry (a b : Byte) : (alu .pass a b).c = false := rfl
@[simp] theorem alu_not_carry (a b : Byte) : (alu .not a b).c = false := rfl
@[simp] theorem alu_add_carry (a b : Byte) : (alu .add a b).c = decide (a.toNat + b.toNat > 255) := rfl
@[simp] theorem alu_sub_carry (a b : Byte) : (alu .sub a b).c = decide (a.toNat < b.toNat) := rfl
@[simp] theorem alu_and_carry (a b : Byte) : (alu .and a b).c = false := rfl
@[simp] theorem alu_or_carry (a b : Byte) : (alu .or a b).c = false := rfl
@[simp] theorem alu_xor_carry (a b : Byte) : (alu .xor a b).c = false := rfl

/-- The zero flag as a comparison of numbers. -/
theorem aluFlags_zero (o : AluResult) : (aluFlags o).zero = decide (o.r.toNat = 0) := by
  simp only [aluFlags, decide_eq_decide]
  constructor
  · intro h; rw [h]; rfl
  · intro h; exact BitVec.eq_of_toNat_eq (by simpa using h)

@[simp] theorem aluFlags_overflow (o : AluResult) : (aluFlags o).overflow = o.c := rfl

end Sys2Proof.Machine
end

