-- ==== Sys2Proof/Laws/Operands.lean ====
section
/-! SUPPORT. What each operand check answers (40_execution_cycle.md rule R91 checks 2 and 3), said once. -/

namespace Sys2Proof.Machine

theorem regIndex_le {n : Byte} (h : n.toNat ≤ 15) : regIndex n = .ok (n.setWidth 4) := by
  unfold regIndex; rw [if_pos h]

theorem regIndex_gt {n : Byte} (h : 15 < n.toNat) : regIndex n = .error (.badRegister n) := by
  unfold regIndex; rw [if_neg (by omega)]

@[simp] theorem regIndex_setWidth (i : RegIndex) : regIndex (i.setWidth 8) = .ok i := by
  have h : (i.setWidth 8).toNat ≤ 15 := by
    have := i.isLt
    rw [BitVec.toNat_setWidth, Nat.mod_eq_of_lt (by omega)]
    omega
  rw [regIndex_le h, BitVec.setWidth_setWidth_of_le _ (by omega), BitVec.setWidth_eq]

/-- An index that names a register is that register's own operand. -/
theorem regIndex_ok {n : Byte} {i : RegIndex} (h : regIndex n = .ok i) : n = i.setWidth 8 ∧ n.toNat ≤ 15 := by
  unfold regIndex at h
  split at h
  · rename_i hn
    cases h
    refine ⟨BitVec.eq_of_toNat_eq ?_, hn⟩
    simp only [BitVec.toNat_setWidth]
    omega
  · cases h

theorem regIndex_error {n : Byte} {f : OperandFault} (h : regIndex n = .error f) :
    f = .badRegister n ∧ 15 < n.toNat := by
  unfold regIndex at h
  split at h
  · cases h
  · cases h; exact ⟨rfl, by omega⟩

/-! ## Operands that are in order -/

@[simp] theorem operandsRR_regOf (d a : RegIndex) : operandsRR (regOf d) (regOf a) = .ok (d, a) := by
  simp [operandsRR, regOf]

@[simp] theorem operandsRRR_regOf (d a b : RegIndex) :
    operandsRRR (regOf d) (regOf a) (regOf b) = .ok (d, a, b) := by
  simp [operandsRRR, regOf]

@[simp] theorem operandsI_regOf (d a : RegIndex) (k : Byte) :
    operandsI (regOf d) (regOf a) (.imm8 k) = .ok (d, a, k) := by
  simp [operandsI, regOf]

@[simp] theorem operandsJ_targetOf (k : BitVec 12) : operandsJ (targetOf k) = .ok (k.setWidth 16) := by
  have h : (k.setWidth 16).toNat ≤ 4095 := by
    have := k.isLt
    rw [BitVec.toNat_setWidth, Nat.mod_eq_of_lt (by omega)]
    omega
  simp only [operandsJ, targetOf, h, if_true]

/-! ## What an accepted operand form is -/

theorem operandsRR_ok {rd rs1 : Operand} {d a : RegIndex} (h : operandsRR rd rs1 = .ok (d, a)) :
    rd = regOf d ∧ rs1 = regOf a := by
  unfold operandsRR at h
  split at h
  · split at h
    · cases h
    · split at h
      · cases h
      · rename_i ha _ _ hd
        cases h
        exact ⟨by rw [regOf, (regIndex_ok hd).1], by rw [regOf, (regIndex_ok ha).1]⟩
  · cases h

theorem operandsRRR_ok {rd rs1 rs2 : Operand} {d a b : RegIndex} (h : operandsRRR rd rs1 rs2 = .ok (d, a, b)) :
    rd = regOf d ∧ rs1 = regOf a ∧ rs2 = regOf b := by
  unfold operandsRRR at h
  split at h
  · split at h
    · cases h
    · split at h
      · cases h
      · split at h
        · cases h
        · rename_i ha _ _ hb _ _ hd
          cases h
          exact ⟨by rw [regOf, (regIndex_ok hd).1], by rw [regOf, (regIndex_ok ha).1], by rw [regOf, (regIndex_ok hb).1]⟩
  · cases h

theorem operandsI_ok {rd rs1 imm : Operand} {d a : RegIndex} {k : Byte} (h : operandsI rd rs1 imm = .ok (d, a, k)) :
    rd = regOf d ∧ rs1 = regOf a ∧ imm = .imm8 k := by
  unfold operandsI at h
  split at h
  · split at h
    · cases h
    · split at h
      · cases h
      · rename_i ha _ _ hd
        cases h
        exact ⟨by rw [regOf, (regIndex_ok hd).1], by rw [regOf, (regIndex_ok ha).1], rfl⟩
  · cases h

theorem operandsJ_ok {imm : Operand} {t : Addr} (h : operandsJ imm = .ok t) :
    imm = .imm12 t ∧ t.toNat ≤ 4095 := by
  unfold operandsJ at h
  split at h
  · split at h
    · cases h; exact ⟨rfl, ‹_›⟩
    · cases h
  · cases h

/-! ## What an operand check refuses -/

theorem operandsRR_shape {rd rs1 : Operand} (h : (rd.isReg && rs1.isReg) = false) :
    operandsRR rd rs1 = .error .wrongShape := by
  cases rd <;> cases rs1 <;> simp_all [operandsRR, Operand.isReg]

theorem operandsRRR_shape {rd rs1 rs2 : Operand} (h : (rd.isReg && rs1.isReg && rs2.isReg) = false) :
    operandsRRR rd rs1 rs2 = .error .wrongShape := by
  cases rd <;> cases rs1 <;> cases rs2 <;> simp_all [operandsRRR, Operand.isReg]

theorem operandsI_shape {rd rs1 imm : Operand} (h : (rd.isReg && rs1.isReg && imm.isImm8) = false) :
    operandsI rd rs1 imm = .error .wrongShape := by
  cases rd <;> cases rs1 <;> cases imm <;> simp_all [operandsI, Operand.isReg, Operand.isImm8]

theorem operandsJ_shape {imm : Operand} (h : imm.isImm12 = false) : operandsJ imm = .error .wrongShape := by
  cases imm <;> simp_all [operandsJ, Operand.isImm12]

theorem operandsJ_range {t : BitVec 16} (h : 4095 < t.toNat) : operandsJ (.imm12 t) = .error .wrongShape := by
  simp only [operandsJ]
  rw [if_neg (by omega)]

/-- With registers in both slots, the first index above 15 in the order rs1, rd is the fault. -/
theorem operandsRR_regs (n m : Byte) :
    operandsRR (.reg n) (.reg m) =
      match [m, n].find? (fun k => decide (15 < k.toNat)) with
      | some k => .error (.badRegister k)
      | none => .ok (n.setWidth 4, m.setWidth 4) := by
  by_cases hm : 15 < m.toNat <;> by_cases hn : 15 < n.toNat <;>
    simp [operandsRR, List.find?, hm, hn, regIndex_gt, regIndex_le, Nat.le_of_not_lt]

theorem operandsRRR_regs (n m k : Byte) :
    operandsRRR (.reg n) (.reg m) (.reg k) =
      match [m, k, n].find? (fun k => decide (15 < k.toNat)) with
      | some k => .error (.badRegister k)
      | none => .ok (n.setWidth 4, m.setWidth 4, k.setWidth 4) := by
  by_cases hm : 15 < m.toNat <;> by_cases hk : 15 < k.toNat <;> by_cases hn : 15 < n.toNat <;>
    simp [operandsRRR, List.find?, hm, hn, hk, regIndex_gt, regIndex_le, Nat.le_of_not_lt]

theorem operandsI_regs (n m k : Byte) :
    operandsI (.reg n) (.reg m) (.imm8 k) =
      match [m, n].find? (fun k => decide (15 < k.toNat)) with
      | some k => .error (.badRegister k)
      | none => .ok (n.setWidth 4, m.setWidth 4, k) := by
  by_cases hm : 15 < m.toNat <;> by_cases hn : 15 < n.toNat <;>
    simp [operandsI, List.find?, hm, hn, regIndex_gt, regIndex_le, Nat.le_of_not_lt]

/-- Raising an operand fault records it in `STATUS` and changes nothing else. -/
theorem raiseOperand_eq (f : OperandFault) (s : State) :
    ∃ kind info, raiseOperand f s = { s with status := .faulted kind info } := by
  cases f <;> exact ⟨_, _, rfl⟩

end Sys2Proof.Machine
end

