-- ==== Sys2Proof/Laws/PerInstr.lean ====
section
/-! SUPPORT. A law of every instruction as syntax: the encoder puts a well-formed instruction into its own row of the opcode
table (30_encoding.md rule R52). -/

namespace Sys2Proof

/-- A register slot in range names a register. -/
theorem Operand.eq_regOf {o : Operand} (hr : o.isReg = true) (hi : o.inRange = true) : ∃ i, o = regOf i := by
  cases o with
  | reg n =>
    simp only [Operand.inRange, decide_eq_true_eq] at hi
    refine ⟨n.setWidth 4, ?_⟩
    simp only [regOf, Operand.reg.injEq]
    apply BitVec.eq_of_toNat_eq
    simp only [BitVec.toNat_setWidth]
    omega
  | imm8 k => cases hr
  | imm12 t => cases hr
  | label n => cases hr

/-- A 12-bit immediate slot in range holds a branch target. -/
theorem Operand.eq_targetOf {o : Operand} (hr : o.isImm12 = true) (hi : o.inRange = true) : ∃ k, o = targetOf k := by
  cases o with
  | imm12 t =>
    simp only [Operand.inRange, decide_eq_true_eq] at hi
    refine ⟨t.setWidth 12, ?_⟩
    simp only [targetOf, Operand.imm12.injEq]
    apply BitVec.eq_of_toNat_eq
    simp only [BitVec.toNat_setWidth]
    omega
  | imm8 k => cases hr
  | reg n => cases hr
  | label n => cases hr

/-- An 8-bit immediate slot holds a value. -/
theorem Operand.eq_imm8 {o : Operand} (h : o.isImm8 = true) : ∃ k, o = .imm8 k := by
  cases o with
  | imm8 k => exact ⟨k, rfl⟩
  | reg n => cases h
  | imm12 t => cases h
  | label n => cases h

/-- The slots of a well-formed instruction with two registers. -/
theorem wellFormed_rr {d a : Operand} (h : (d.isReg && a.isReg && [d, a].all Operand.inRange) = true) :
    ∃ i j, d = regOf i ∧ a = regOf j := by
  simp only [Bool.and_eq_true, List.all_cons, List.all_nil] at h
  obtain ⟨i, hi⟩ := Operand.eq_regOf h.1.1 h.2.1
  obtain ⟨j, hj⟩ := Operand.eq_regOf h.1.2 h.2.2.1
  exact ⟨i, j, hi, hj⟩

/-- The slots of a well-formed instruction with three registers. -/
theorem wellFormed_rrr {d a b : Operand}
    (h : (d.isReg && a.isReg && b.isReg && [d, a, b].all Operand.inRange) = true) :
    ∃ i j k, d = regOf i ∧ a = regOf j ∧ b = regOf k := by
  simp only [Bool.and_eq_true, List.all_cons, List.all_nil] at h
  obtain ⟨i, hi⟩ := Operand.eq_regOf h.1.1.1 h.2.1
  obtain ⟨j, hj⟩ := Operand.eq_regOf h.1.1.2 h.2.2.1
  obtain ⟨k, hk⟩ := Operand.eq_regOf h.1.2 h.2.2.2.1
  exact ⟨i, j, k, hi, hj, hk⟩

/-- The slots of a well-formed instruction with two registers and an immediate. -/
theorem wellFormed_i {d a k : Operand}
    (h : (d.isReg && a.isReg && k.isImm8 && [d, a, k].all Operand.inRange) = true) :
    ∃ i j v, d = regOf i ∧ a = regOf j ∧ k = .imm8 v := by
  simp only [Bool.and_eq_true, List.all_cons, List.all_nil] at h
  obtain ⟨i, hi⟩ := Operand.eq_regOf h.1.1.1 h.2.1
  obtain ⟨j, hj⟩ := Operand.eq_regOf h.1.1.2 h.2.2.1
  obtain ⟨v, hv⟩ := Operand.eq_imm8 h.1.2
  exact ⟨i, j, v, hi, hj, hv⟩

/-- The slot of a well-formed transfer. -/
theorem wellFormed_j {t : Operand} (h : (t.isImm12 && [t].all Operand.inRange) = true) : ∃ k, t = targetOf k := by
  simp only [Bool.and_eq_true, List.all_cons, List.all_nil] at h
  exact Operand.eq_targetOf h.1 h.2.1

end Sys2Proof

/-- The instruction, if well-formed, encodes to a word of its own row. -/
def Sys2Proof.Laws.EncodesInRow.Statement (i : Sys2Proof.Instr) : Prop :=
  i.wellFormed = true →
    ∃ w, Sys2Proof.encode i = .ok w ∧ w &&& i.mnemonic.rowMask = i.mnemonic.rowMatch

namespace Sys2Proof.Laws

open Sys2Proof

theorem EncodesInRow.halt : EncodesInRow.Statement .halt := fun _ => ⟨0x000000, by decide, by decide⟩

theorem EncodesInRow.nop : EncodesInRow.Statement .nop := fun _ => ⟨0x000001, by decide, by decide⟩

theorem EncodesInRow.mv (rd rs1 : Operand) : EncodesInRow.Statement (.mv rd rs1) := by
  intro h
  obtain ⟨i, j, rfl, rfl⟩ := wellFormed_rr h
  refine ⟨_, encodeBlock_rr OpMap.default (m := .mv) rfl i j 0 0 0, ?_⟩
  apply BitVec.eq_of_getLsbD_eq
  intro k hk
  interval_cases k <;> simp [selectorWord, OpMap.default, Instr.mnemonic, Mnemonic.rowMask, Mnemonic.rowMatch]

theorem EncodesInRow.not (rd rs1 : Operand) : EncodesInRow.Statement (.not rd rs1) := by
  intro h
  obtain ⟨i, j, rfl, rfl⟩ := wellFormed_rr h
  refine ⟨_, encodeBlock_rr OpMap.default (m := .not) rfl i j 0 0 0, ?_⟩
  apply BitVec.eq_of_getLsbD_eq
  intro k hk
  interval_cases k <;> simp [selectorWord, OpMap.default, Instr.mnemonic, Mnemonic.rowMask, Mnemonic.rowMatch]

theorem EncodesInRow.add (rd rs1 rs2 : Operand) : EncodesInRow.Statement (.add rd rs1 rs2) := by
  intro h
  obtain ⟨i, j, l, rfl, rfl, rfl⟩ := wellFormed_rrr h
  refine ⟨_, encodeBlock_rrr OpMap.default (m := .add) rfl i j l 0 0, ?_⟩
  apply BitVec.eq_of_getLsbD_eq
  intro k hk
  interval_cases k <;> simp [selectorWord, OpMap.default, Instr.mnemonic, Mnemonic.rowMask, Mnemonic.rowMatch]

theorem EncodesInRow.sub (rd rs1 rs2 : Operand) : EncodesInRow.Statement (.sub rd rs1 rs2) := by
  intro h
  obtain ⟨i, j, l, rfl, rfl, rfl⟩ := wellFormed_rrr h
  refine ⟨_, encodeBlock_rrr OpMap.default (m := .sub) rfl i j l 0 0, ?_⟩
  apply BitVec.eq_of_getLsbD_eq
  intro k hk
  interval_cases k <;> simp [selectorWord, OpMap.default, Instr.mnemonic, Mnemonic.rowMask, Mnemonic.rowMatch]

theorem EncodesInRow.and (rd rs1 rs2 : Operand) : EncodesInRow.Statement (.and rd rs1 rs2) := by
  intro h
  obtain ⟨i, j, l, rfl, rfl, rfl⟩ := wellFormed_rrr h
  refine ⟨_, encodeBlock_rrr OpMap.default (m := .and) rfl i j l 0 0, ?_⟩
  apply BitVec.eq_of_getLsbD_eq
  intro k hk
  interval_cases k <;> simp [selectorWord, OpMap.default, Instr.mnemonic, Mnemonic.rowMask, Mnemonic.rowMatch]

theorem EncodesInRow.or (rd rs1 rs2 : Operand) : EncodesInRow.Statement (.or rd rs1 rs2) := by
  intro h
  obtain ⟨i, j, l, rfl, rfl, rfl⟩ := wellFormed_rrr h
  refine ⟨_, encodeBlock_rrr OpMap.default (m := .or) rfl i j l 0 0, ?_⟩
  apply BitVec.eq_of_getLsbD_eq
  intro k hk
  interval_cases k <;> simp [selectorWord, OpMap.default, Instr.mnemonic, Mnemonic.rowMask, Mnemonic.rowMatch]

theorem EncodesInRow.xor (rd rs1 rs2 : Operand) : EncodesInRow.Statement (.xor rd rs1 rs2) := by
  intro h
  obtain ⟨i, j, l, rfl, rfl, rfl⟩ := wellFormed_rrr h
  refine ⟨_, encodeBlock_rrr OpMap.default (m := .xor) rfl i j l 0 0, ?_⟩
  apply BitVec.eq_of_getLsbD_eq
  intro k hk
  interval_cases k <;> simp [selectorWord, OpMap.default, Instr.mnemonic, Mnemonic.rowMask, Mnemonic.rowMatch]

theorem EncodesInRow.addi (rd rs1 imm : Operand) : EncodesInRow.Statement (.addi rd rs1 imm) := by
  intro h
  obtain ⟨i, j, v, rfl, rfl, rfl⟩ := wellFormed_i h
  refine ⟨_, encodeBlock_i OpMap.default (m := .addi) rfl i j 0 v 0, ?_⟩
  apply BitVec.eq_of_getLsbD_eq
  intro k hk
  interval_cases k <;> simp [selectorWord, OpMap.default, Instr.mnemonic, Mnemonic.rowMask, Mnemonic.rowMatch]

theorem EncodesInRow.andi (rd rs1 imm : Operand) : EncodesInRow.Statement (.andi rd rs1 imm) := by
  intro h
  obtain ⟨i, j, v, rfl, rfl, rfl⟩ := wellFormed_i h
  refine ⟨_, encodeBlock_i OpMap.default (m := .andi) rfl i j 0 v 0, ?_⟩
  apply BitVec.eq_of_getLsbD_eq
  intro k hk
  interval_cases k <;> simp [selectorWord, OpMap.default, Instr.mnemonic, Mnemonic.rowMask, Mnemonic.rowMatch]

theorem EncodesInRow.ori (rd rs1 imm : Operand) : EncodesInRow.Statement (.ori rd rs1 imm) := by
  intro h
  obtain ⟨i, j, v, rfl, rfl, rfl⟩ := wellFormed_i h
  refine ⟨_, encodeBlock_i OpMap.default (m := .ori) rfl i j 0 v 0, ?_⟩
  apply BitVec.eq_of_getLsbD_eq
  intro k hk
  interval_cases k <;> simp [selectorWord, OpMap.default, Instr.mnemonic, Mnemonic.rowMask, Mnemonic.rowMatch]

theorem EncodesInRow.xori (rd rs1 imm : Operand) : EncodesInRow.Statement (.xori rd rs1 imm) := by
  intro h
  obtain ⟨i, j, v, rfl, rfl, rfl⟩ := wellFormed_i h
  refine ⟨_, encodeBlock_i OpMap.default (m := .xori) rfl i j 0 v 0, ?_⟩
  apply BitVec.eq_of_getLsbD_eq
  intro k hk
  interval_cases k <;> simp [selectorWord, OpMap.default, Instr.mnemonic, Mnemonic.rowMask, Mnemonic.rowMatch]

theorem EncodesInRow.jmp (imm : Operand) : EncodesInRow.Statement (.jmp imm) := by
  intro h
  obtain ⟨t, rfl⟩ := wellFormed_j h
  refine ⟨_, encodeBlock_j OpMap.default (m := .jmp) rfl 0 0 0 0 t, ?_⟩
  apply BitVec.eq_of_getLsbD_eq
  intro k hk
  interval_cases k <;> simp [selectorWord, OpMap.default, Instr.mnemonic, Mnemonic.rowMask, Mnemonic.rowMatch]

theorem EncodesInRow.bz (imm : Operand) : EncodesInRow.Statement (.bz imm) := by
  intro h
  obtain ⟨t, rfl⟩ := wellFormed_j h
  refine ⟨_, encodeBlock_j OpMap.default (m := .bz) rfl 0 0 0 0 t, ?_⟩
  apply BitVec.eq_of_getLsbD_eq
  intro k hk
  interval_cases k <;> simp [selectorWord, OpMap.default, Instr.mnemonic, Mnemonic.rowMask, Mnemonic.rowMatch]

theorem EncodesInRow.bnz (imm : Operand) : EncodesInRow.Statement (.bnz imm) := by
  intro h
  obtain ⟨t, rfl⟩ := wellFormed_j h
  refine ⟨_, encodeBlock_j OpMap.default (m := .bnz) rfl 0 0 0 0 t, ?_⟩
  apply BitVec.eq_of_getLsbD_eq
  intro k hk
  interval_cases k <;> simp [selectorWord, OpMap.default, Instr.mnemonic, Mnemonic.rowMask, Mnemonic.rowMatch]

end Sys2Proof.Laws
end

