-- ==== Sys2Proof/Laws/Forms.lean ====
section
/-! SUPPORT. What the execution of each operand form can answer, said once. -/

namespace Sys2Proof.Machine

/-! ## Each form either raises the operand fault found or commits one effect -/

theorem runRR_cases (op : AluOp) (rd rs1 : Operand) (s : State) :
    (∃ f, operandsRR rd rs1 = .error f ∧ runRR op rd rs1 s = .next (raiseOperand f s)) ∨
    (∃ d a, rd = regOf d ∧ rs1 = regOf a ∧
      runRR op rd rs1 s = .next (commit (aluEffect op d (readReg s a) 0) s)) := by
  cases h : operandsRR rd rs1 with
  | error f => exact .inl ⟨f, rfl, by simp only [runRR, h]⟩
  | ok p =>
    obtain ⟨d, a⟩ := p
    exact .inr ⟨d, a, (operandsRR_ok h).1, (operandsRR_ok h).2, by simp only [runRR, h]⟩

theorem runRRR_cases (op : AluOp) (rd rs1 rs2 : Operand) (s : State) :
    (∃ f, operandsRRR rd rs1 rs2 = .error f ∧ runRRR op rd rs1 rs2 s = .next (raiseOperand f s)) ∨
    (∃ d a b, rd = regOf d ∧ rs1 = regOf a ∧ rs2 = regOf b ∧
      runRRR op rd rs1 rs2 s = .next (commit (aluEffect op d (readReg s a) (readReg s b)) s)) := by
  cases h : operandsRRR rd rs1 rs2 with
  | error f => exact .inl ⟨f, rfl, by simp only [runRRR, h]⟩
  | ok p =>
    obtain ⟨d, a, b⟩ := p
    obtain ⟨h1, h2, h3⟩ := operandsRRR_ok h
    exact .inr ⟨d, a, b, h1, h2, h3, by simp only [runRRR, h]⟩

theorem runI_cases (op : AluOp) (rd rs1 imm : Operand) (s : State) :
    (∃ f, operandsI rd rs1 imm = .error f ∧ runI op rd rs1 imm s = .next (raiseOperand f s)) ∨
    (∃ d a k, rd = regOf d ∧ rs1 = regOf a ∧ imm = .imm8 k ∧
      runI op rd rs1 imm s = .next (commit (aluEffect op d (readReg s a) k) s)) := by
  cases h : operandsI rd rs1 imm with
  | error f => exact .inl ⟨f, rfl, by simp only [runI, h]⟩
  | ok p =>
    obtain ⟨d, a, k⟩ := p
    obtain ⟨h1, h2, h3⟩ := operandsI_ok h
    exact .inr ⟨d, a, k, h1, h2, h3, by simp only [runI, h]⟩

theorem runJ_cases (imm : Operand) (flags : Flags) (taken : Bool) (s : State) :
    (∃ f, operandsJ imm = .error f ∧ runJ imm flags taken s = .next (raiseOperand f s)) ∨
    (∃ t : Addr, imm = .imm12 t ∧ t.toNat ≤ 4095 ∧
      runJ imm flags taken s = .next (commit ⟨none, flags, if taken then .target t else .sequential⟩ s)) := by
  cases h : operandsJ imm with
  | error f => exact .inl ⟨f, rfl, by simp only [runJ, h]⟩
  | ok t => exact .inr ⟨t, (operandsJ_ok h).1, (operandsJ_ok h).2, by simp only [runJ, h]⟩

/-! ## Each form on operands in order -/

theorem runRR_regOf (op : AluOp) (d a : RegIndex) (s : State) :
    runRR op (regOf d) (regOf a) s = .next (commit (aluEffect op d (readReg s a) 0) s) := by
  simp only [runRR, operandsRR_regOf]

theorem runRRR_regOf (op : AluOp) (d a b : RegIndex) (s : State) :
    runRRR op (regOf d) (regOf a) (regOf b) s
      = .next (commit (aluEffect op d (readReg s a) (readReg s b)) s) := by
  simp only [runRRR, operandsRRR_regOf]

theorem runI_regOf (op : AluOp) (d a : RegIndex) (k : Byte) (s : State) :
    runI op (regOf d) (regOf a) (.imm8 k) s = .next (commit (aluEffect op d (readReg s a) k) s) := by
  simp only [runI, operandsI_regOf]

theorem runJ_targetOf (k : BitVec 12) (flags : Flags) (taken : Bool) (s : State) :
    runJ (targetOf k) flags taken s
      = .next (commit ⟨none, flags, if taken then .target (k.setWidth 16) else .sequential⟩ s) := by
  simp only [runJ, operandsJ_targetOf]

/-! ## What a commit of an ALU effect leaves -/

/-- Below the top address, the commit of an ALU effect leaves the result, its flags and the next `pc`, and nothing else. -/
theorem commit_aluEffect_leaves (op : AluOp) (d : RegIndex) (a b : Byte) {s : State} (hpc : s.pc ≠ 0xFFFF) :
    LeavesResult s (commit (aluEffect op d a b) s) d (alu op a b).r.toNat (alu op a b).c := by
  obtain ⟨p, hp, hn⟩ := commit_sequential (e := aluEffect op d a b) rfl hpc
  rw [hp]
  refine ⟨fun i => ?_, ?_, ?_, hn, ?_, imemRead_congr ?_ ?_⟩
  · have h := readReg_commitData (aluEffect op d a b) s i
    simp only [aluEffect] at h
    rw [show readReg { commitData (aluEffect op d a b) s with pc := p } i
        = readReg (commitData (aluEffect op d a b) s) i from readReg_congr rfl i]
    simp only [aluEffect, h]
    split <;> rfl
  · simp only [commitData_flags]; exact aluFlags_zero _
  · simp [aluEffect]
  · simp
  · simp
  · simp

/-- A commit without a register write leaves the registers alone. -/
theorem commit_control_leaves (flags : Flags) (next : NextPc) (s : State) (i : RegIndex) :
    readReg (commit ⟨none, flags, next⟩ s) i = readReg s i := by
  rcases commit_cases ⟨none, flags, next⟩ s with ⟨-, h⟩ | ⟨t, -, h⟩ | ⟨-, p, h, -⟩ | ⟨-, -, h⟩ <;> rw [h] <;>
    exact readReg_congr (by simp [commitData]) i

/-! ## What every instruction can answer -/

/-- What is known of the effect an instruction commits in a state. -/
structure EffectOf (i : Instr) (s : State) (e : Effect) : Prop where
  wellFormed : i.wellFormed = true
  stop : e.next = .stop ↔ i = .halt
  sequential : e.next = .sequential ↔ i.goesOn s.flags.zero = true
  target : ∀ t, e.next = .target t → t.toNat ≤ 4095
  write : e.write.map Prod.fst = i.destination
  flags : i.isBranch = true → e.flags = s.flags

@[simp] theorem regOf_isReg (i : RegIndex) : (regOf i).isReg = true := rfl

@[simp] theorem regOf_inRange (i : RegIndex) : (regOf i).inRange = true := by
  have := i.isLt
  simp only [regOf, Operand.inRange, BitVec.toNat_setWidth, decide_eq_true_eq]
  omega

@[simp] theorem imm8_isImm8 (k : Byte) : (Operand.imm8 k).isImm8 = true := rfl

@[simp] theorem imm8_inRange (k : Byte) : (Operand.imm8 k).inRange = true := rfl

@[simp] theorem regOf_register? (i : RegIndex) : (regOf i).register? = some i := by
  have h : (i.setWidth 8).toNat ≤ 15 := by
    have := i.isLt
    rw [BitVec.toNat_setWidth]
    omega
  simp only [regOf, Operand.register?, h, if_true, Option.some.injEq]
  rw [BitVec.setWidth_setWidth_of_le _ (by omega), BitVec.setWidth_eq]

theorem effectOf_alu {i : Instr} {d : RegIndex} (op : AluOp) (x y : Byte) (s : State) (hw : i.wellFormed = true)
    (hd : i.destination = some d) (hg : i.goesOn s.flags.zero = true) (hh : i ≠ .halt) (hb : i.isBranch = false) :
    EffectOf i s (aluEffect op d x y) :=
  ⟨hw, by simp [aluEffect, hh], by simp [aluEffect, hg], by simp [aluEffect], by simp [aluEffect, hd], by simp [hb]⟩

theorem exec_cases_rr (op : AluOp) {i : Instr} {rd rs1 : Operand} {s : State}
    (hexec : exec i s = runRR op rd rs1 s)
    (hwf : i.wellFormed = (rd.isReg && rs1.isReg && [rd, rs1].all Operand.inRange))
    (hd : i.destination = rd.register?) (hg : i.goesOn s.flags.zero = true) (hh : i ≠ .halt) (hb : i.isBranch = false) :
    (∃ f, i.wellFormed = false ∧ exec i s = .next (raiseOperand f s)) ∨
      ∃ e, EffectOf i s e ∧ exec i s = .next (commit e s) := by
  rw [hexec]
  rcases runRR_cases op rd rs1 s with ⟨f, hf, h⟩ | ⟨d, a, rfl, rfl, h⟩
  · refine .inl ⟨f, ?_, h⟩
    rw [hwf, Bool.eq_false_iff]
    intro hc
    obtain ⟨x, y, rfl, rfl⟩ := wellFormed_rr hc
    simp at hf
  · exact .inr ⟨_, effectOf_alu op _ _ s (by rw [hwf]; simp) (by rw [hd]; simp) hg hh hb, h⟩

theorem exec_cases_rrr (op : AluOp) {i : Instr} {rd rs1 rs2 : Operand} {s : State}
    (hexec : exec i s = runRRR op rd rs1 rs2 s)
    (hwf : i.wellFormed = (rd.isReg && rs1.isReg && rs2.isReg && [rd, rs1, rs2].all Operand.inRange))
    (hd : i.destination = rd.register?) (hg : i.goesOn s.flags.zero = true) (hh : i ≠ .halt) (hb : i.isBranch = false) :
    (∃ f, i.wellFormed = false ∧ exec i s = .next (raiseOperand f s)) ∨
      ∃ e, EffectOf i s e ∧ exec i s = .next (commit e s) := by
  rw [hexec]
  rcases runRRR_cases op rd rs1 rs2 s with ⟨f, hf, h⟩ | ⟨d, a, b, rfl, rfl, rfl, h⟩
  · refine .inl ⟨f, ?_, h⟩
    rw [hwf, Bool.eq_false_iff]
    intro hc
    obtain ⟨x, y, z, rfl, rfl, rfl⟩ := wellFormed_rrr hc
    simp at hf
  · exact .inr ⟨_, effectOf_alu op _ _ s (by rw [hwf]; simp) (by rw [hd]; simp) hg hh hb, h⟩

theorem exec_cases_i (op : AluOp) {i : Instr} {rd rs1 imm : Operand} {s : State}
    (hexec : exec i s = runI op rd rs1 imm s)
    (hwf : i.wellFormed = (rd.isReg && rs1.isReg && imm.isImm8 && [rd, rs1, imm].all Operand.inRange))
    (hd : i.destination = rd.register?) (hg : i.goesOn s.flags.zero = true) (hh : i ≠ .halt) (hb : i.isBranch = false) :
    (∃ f, i.wellFormed = false ∧ exec i s = .next (raiseOperand f s)) ∨
      ∃ e, EffectOf i s e ∧ exec i s = .next (commit e s) := by
  rw [hexec]
  rcases runI_cases op rd rs1 imm s with ⟨f, hf, h⟩ | ⟨d, a, k, rfl, rfl, rfl, h⟩
  · refine .inl ⟨f, ?_, h⟩
    rw [hwf, Bool.eq_false_iff]
    intro hc
    obtain ⟨x, y, v, rfl, rfl, rfl⟩ := wellFormed_i hc
    simp at hf
  · exact .inr ⟨_, effectOf_alu op _ _ s (by rw [hwf]; simp) (by rw [hd]; simp) hg hh hb, h⟩

theorem exec_cases_j {i : Instr} {imm : Operand} {flags : Flags} {taken : Bool} {s : State}
    (hexec : exec i s = runJ imm flags taken s)
    (hwf : i.wellFormed = (imm.isImm12 && [imm].all Operand.inRange))
    (hd : i.destination = none) (hg : i.goesOn s.flags.zero = !taken) (hh : i ≠ .halt)
    (hb : i.isBranch = true → flags = s.flags) :
    (∃ f, i.wellFormed = false ∧ exec i s = .next (raiseOperand f s)) ∨
      ∃ e, EffectOf i s e ∧ exec i s = .next (commit e s) := by
  rw [hexec]
  rcases runJ_cases imm flags taken s with ⟨f, hf, h⟩ | ⟨t, rfl, ht, h⟩
  · refine .inl ⟨f, ?_, h⟩
    rw [hwf, Bool.eq_false_iff]
    intro hc
    obtain ⟨x, rfl⟩ := wellFormed_j hc
    simp at hf
  · refine .inr ⟨_, ⟨?_, ?_, ?_, ?_, by rw [hd]; rfl, hb⟩, h⟩
    · rw [hwf]; simp [Operand.isImm12, Operand.inRange, ht]
    · cases taken <;> simp [hh]
    · cases taken <;> simp [hg]
    · cases taken <;> simp [ht]

/-- Every instruction either is ill-formed and raises the operand fault found, or is well-formed and commits its effect. -/
theorem exec_cases (i : Instr) (s : State) :
    (∃ f, i.wellFormed = false ∧ exec i s = .next (raiseOperand f s)) ∨
      ∃ e, EffectOf i s e ∧ exec i s = .next (commit e s) := by
  cases i with
  | halt => exact .inr ⟨_, ⟨rfl, by simp, by simp [Instr.goesOn, Instr.mnemonic], by simp, rfl, by simp [Instr.isBranch, Instr.mnemonic]⟩, rfl⟩
  | nop => exact .inr ⟨_, ⟨rfl, by simp, by simp [Instr.goesOn, Instr.mnemonic], by simp, rfl, by simp [Instr.isBranch, Instr.mnemonic]⟩, rfl⟩
  | mv d a => exact exec_cases_rr .pass rfl rfl rfl rfl (by simp) rfl
  | not d a => exact exec_cases_rr .not rfl rfl rfl rfl (by simp) rfl
  | add d a b => exact exec_cases_rrr .add rfl rfl rfl rfl (by simp) rfl
  | sub d a b => exact exec_cases_rrr .sub rfl rfl rfl rfl (by simp) rfl
  | and d a b => exact exec_cases_rrr .and rfl rfl rfl rfl (by simp) rfl
  | or d a b => exact exec_cases_rrr .or rfl rfl rfl rfl (by simp) rfl
  | xor d a b => exact exec_cases_rrr .xor rfl rfl rfl rfl (by simp) rfl
  | addi d a k => exact exec_cases_i .add rfl rfl rfl rfl (by simp) rfl
  | andi d a k => exact exec_cases_i .and rfl rfl rfl rfl (by simp) rfl
  | ori d a k => exact exec_cases_i .or rfl rfl rfl rfl (by simp) rfl
  | xori d a k => exact exec_cases_i .xor rfl rfl rfl rfl (by simp) rfl
  | jmp t => exact exec_cases_j rfl rfl rfl rfl (by simp) (by simp [Instr.isBranch, Instr.mnemonic])
  | bz t => exact exec_cases_j rfl rfl rfl rfl (by simp) (fun _ => rfl)
  | bnz t => exact exec_cases_j rfl rfl rfl (by simp [Instr.goesOn, Instr.mnemonic]) (by simp) (fun _ => rfl)

end Sys2Proof.Machine
end

