-- ==== Sys2Proof/Tests/Slice0.lean ====
section
/-! SUPPORT. Tests. Expected words, results and flags come from 95_test_vectors.md and from hand calculation on the rules. The
witness theorems show, for each statement with hypotheses, states and operands that meet them. -/

namespace Sys2Proof.Tests

open Sys2Proof.Machine

/-! ## Helpers -/

/-- The error of a result, if it is one. -/
def errorOf {ε α : Type} : Except ε α → Option ε
  | .error e => some e
  | .ok _ => none

/-- The value of a result, if it has one. -/
def valueOf {ε α : Type} : Except ε α → Option α
  | .error _ => none
  | .ok a => some a

/-- A running state with a full instruction memory: `pc`, `Z`, `V`, `x[1]`, `x[2]`, all else as after reset. -/
def state (pc : Addr) (z v : Bool) (x1 x2 : Byte) : State :=
  { writeReg (writeReg State.reset 1 x1) 2 x2 with pc := pc, flags := ⟨z, v⟩, progLen := 65536 }

/-- A state with one word placed where it fetches. -/
def fetching (w : Word24) (s : State) : State := placeWord s w

/-- `pc`, `Z`, `V` and the status of an answer. -/
def control : Answer → Option (Nat × Bool × Bool × Status)
  | .next t => some (t.pc.toNat, t.flags.zero, t.flags.overflow, t.status)
  | .fault _ => none
  | .refused _ => none

/-- A register of an answer, as a number. -/
def register (i : RegIndex) : Answer → Option Nat
  | .next t => some (readReg t i).toNat
  | .fault _ => none
  | .refused _ => none

/-- The status of an answer. -/
def statusOf : Answer → Option Status
  | .next t => some t.status
  | .fault _ => none
  | .refused _ => none

/-- What an answer says of `x[3]` and the flags: the form of the ALU vectors. -/
def resultIn (i : RegIndex) : Answer → Option (Nat × Bool × Bool)
  | .next t => some ((readReg t i).toNat, t.flags.zero, t.flags.overflow)
  | .fault _ => none
  | .refused _ => none

/-- The answer of the step on one word. -/
def stepOn (w : Word24) (s : State) : Answer := step (fetching w s)

/-! ## Shape and range (30_encoding.md rule R45): an ill-formed term for each check -/

theorem test_wellFormed_accepts :
    (Instr.add (.reg 15) (.reg 0) (.reg 7)).wellFormed = true ∧ (Instr.addi (.reg 1) (.reg 0) (.imm8 255)).wellFormed = true
      ∧ (Instr.jmp (.imm12 4095)).wellFormed = true ∧ Instr.halt.wellFormed = true := by decide

theorem test_wellFormed_refuses_wrong_kind_first_slot : (Instr.mv (.imm8 1) (.reg 2)).wellFormed = false := by decide
theorem test_wellFormed_refuses_wrong_kind_second_slot : (Instr.not (.reg 1) (.imm12 2)).wellFormed = false := by decide
theorem test_wellFormed_refuses_immediate_for_register :
    (Instr.add (.reg 1) (.reg 2) (.imm8 3)).wellFormed = false := by decide
theorem test_wellFormed_refuses_imm12_for_imm8 : (Instr.addi (.reg 1) (.reg 2) (.imm12 3)).wellFormed = false := by decide
theorem test_wellFormed_refuses_register_for_imm8 : (Instr.xori (.reg 1) (.reg 2) (.reg 3)).wellFormed = false := by decide
theorem test_wellFormed_refuses_label : (Instr.bz (.label "a")).wellFormed = false := by decide
theorem test_wellFormed_refuses_register_16 : (Instr.sub (.reg 16) (.reg 2) (.reg 3)).wellFormed = false := by decide
theorem test_wellFormed_refuses_last_register_255 :
    (Instr.xor (.reg 1) (.reg 2) (.reg 255)).wellFormed = false := by decide
theorem test_wellFormed_refuses_imm12_4096 : (Instr.bnz (.imm12 4096)).wellFormed = false := by decide

/-! ## Decoding the words of 95_test_vectors.md section 2 -/

theorem test_decode_control : decode 0x000000 = .instr .halt ∧ decode 0x000001 = .instr .nop := by decide

theorem test_decode_unary :
    decode 0x002102 = .instr (.mv (.reg 1) (.reg 2)) ∧ decode 0x007002 = .instr (.mv (.reg 0) (.reg 7))
      ∧ decode 0x001103 = .instr (.not (.reg 1) (.reg 1)) ∧ decode 0x000403 = .instr (.not (.reg 4) (.reg 0)) := by decide

theorem test_decode_alu_register :
    decode 0x021304 = .instr (.add (.reg 3) (.reg 1) (.reg 2)) ∧ decode 0x021305 = .instr (.sub (.reg 3) (.reg 1) (.reg 2))
      ∧ decode 0x021306 = .instr (.and (.reg 3) (.reg 1) (.reg 2)) ∧ decode 0x021307 = .instr (.or (.reg 3) (.reg 1) (.reg 2))
      ∧ decode 0x021308 = .instr (.xor (.reg 3) (.reg 1) (.reg 2))
      ∧ decode 0x0CBA08 = .instr (.xor (.reg 10) (.reg 11) (.reg 12)) := by decide

theorem test_decode_alu_immediate :
    decode 0x020144 = .instr (.addi (.reg 1) (.reg 0) (.imm8 2)) ∧ decode 0x0F1246 = .instr (.andi (.reg 2) (.reg 1) (.imm8 15))
      ∧ decode 0x0F1247 = .instr (.ori (.reg 2) (.reg 1) (.imm8 15))
      ∧ decode 0xFF1248 = .instr (.xori (.reg 2) (.reg 1) (.imm8 255)) := by decide

theorem test_decode_transfer :
    decode 0x005089 = .instr (.jmp (.imm12 5)) ∧ decode 0xFFF08A = .instr (.bz (.imm12 4095))
      ∧ decode 0x00108B = .instr (.bnz (.imm12 1)) := by decide

/-- The same bits written out field by field: `imm12`, four zero bits, `funct`, `opcode`. -/
theorem test_decode_fields_of_bnz :
    decode (0b000000000010#12 ++ 0b0000#4 ++ 0b10#2 ++ 0b001011#6) = .instr (.bnz (.imm12 2)) := by decide

/-- `rs2`, `rs1`, `rd` of `sub r3, r1, r2` written out. -/
theorem test_decode_fields_of_sub :
    decode (0b0000#4 ++ 0b0010#4 ++ 0b0001#4 ++ 0b0011#4 ++ 0b00#2 ++ 0b000101#6)
      = .instr (.sub (.reg 3) (.reg 1) (.reg 2)) := by decide

/-- 95_test_vectors.md section 3: unassigned pairs. -/
theorem test_decode_refuses_unassigned_pairs :
    decode 0x0000C0 = .illegal 0x0000C0 ∧ decode 0xFFFFFF = .illegal 0xFFFFFF ∧ decode 0x000009 = .illegal 0x000009
      ∧ decode 0x00003F = .illegal 0x00003F ∧ decode 0x000045 = .illegal 0x000045 ∧ decode 0x000042 = .illegal 0x000042
      ∧ decode 0x000084 = .illegal 0x000084 := by decide

/-- 95_test_vectors.md section 3: bits outside the live fields. -/
theorem test_decode_refuses_unused_bits :
    decode 0x000100 = .illegal 0x000100 ∧ decode 0x800000 = .illegal 0x800000 ∧ decode 0x000101 = .illegal 0x000101
      ∧ decode 0x012102 = .illegal 0x012102 ∧ decode 0x121304 = .illegal 0x121304 ∧ decode 0x005189 = .illegal 0x005189 := by
  decide

theorem test_decodeTableWord :
    decodeTableWord 24 0x021304 = some (.add (.reg 3) (.reg 1) (.reg 2)) ∧ decodeTableWord 24 0x0000C0 = none := by decide

/-! ## Encoding (95_test_vectors.md sections 2 and 4) -/

theorem test_encode_words :
    valueOf (encode (.mv (.reg 15) (.reg 0))) = some 0x000F02 ∧ valueOf (encode (.jmp (.imm12 4095))) = some 0xFFF089
      ∧ valueOf (encode (.add (.reg 15) (.reg 15) (.reg 15))) = some 0x0FFF04
      ∧ valueOf (encode (.addi (.reg 1) (.reg 1) (.imm8 1))) = some 0x011144 := by decide

theorem test_encode_refuses_kinds :
    errorOf (encode (.jmp (.label "loop"))) = some .invalidOperand
      ∧ errorOf (encode (.add (.reg 1) (.reg 2) (.imm8 3))) = some .invalidOperand
      ∧ errorOf (encode (.addi (.reg 1) (.reg 2) (.imm12 3))) = some .invalidOperand
      ∧ errorOf (encode (.jmp (.imm8 3))) = some .invalidOperand
      ∧ errorOf (encode (.add (.reg 16) (.reg 2) (.imm8 0))) = some .invalidOperand := by decide

theorem test_encode_refuses_ranges :
    errorOf (encode (.jmp (.imm12 4096))) = some .overflow ∧ errorOf (encode (.mv (.reg 16) (.reg 0))) = some .overflow
      ∧ errorOf (encode (.add (.reg 1) (.reg 2) (.reg 255))) = some .overflow
      ∧ errorOf (encodeSourceWith OpMap.default (.label "loop")) = some .labelNotResolved := by decide

/-- S13: the field is masked before it is set. -/
theorem test_setField_masks :
    valueOf (setFields 0x012104 [(8, 4, 0xF), (8, 4, 0x1)]) = some 0x012104
      ∧ errorOf (setField 0 8 4 16) = some .overflow := by decide

/-! ## One step of each instruction (95_test_vectors.md sections 5 and 6) -/

theorem test_halt_step : control (stepOn 0x000000 (state 3 false true 0 0)) = some (3, true, false, .halted) := by decide
theorem test_nop_step : control (stepOn 0x000001 (state 7 false true 0 0)) = some (8, true, false, .running) := by decide
theorem test_nop_at_the_top :
    control (stepOn 0x000001 (state 0xFFFF false true 0 0)) = some (65535, false, true, .faulted .pcOverflow 0xFFFF) := by
  decide

/-- `mv r1, r0` from `x1 = 3`. -/
theorem test_mv_step : resultIn 1 (stepOn 0x000102 (state 0 false true 3 0)) = some (0, true, false) := by decide
/-- `mv r0, r1`: no write, `Z` from the value read. -/
theorem test_mv_to_r0 : resultIn 0 (stepOn 0x001002 (state 0 true true 3 0)) = some (0, false, false) := by decide
/-- `not r1, r1` from `x1 = 3`. -/
theorem test_not_step : resultIn 1 (stepOn 0x001103 (state 0 true true 3 0)) = some (0xFC, false, false) := by decide
theorem test_not_to_zero : resultIn 1 (stepOn 0x001103 (state 0 false true 255 0)) = some (0, true, false) := by decide

theorem test_add_wraps : resultIn 3 (stepOn 0x021304 (state 0 false false 0x80 0x80)) = some (0, true, true) := by decide
theorem test_add_no_carry : resultIn 3 (stepOn 0x021304 (state 0 true true 0x7F 1)) = some (0x80, false, false) := by decide
/-- `sub r3, r1, r2`: 3 - 5 borrows. -/
theorem test_sub_borrows : resultIn 3 (stepOn 0x021305 (state 0 false false 3 5)) = some (0xFE, false, true) := by decide
/-- 0xC8 - 0x64 does not. -/
theorem test_sub_order : resultIn 3 (stepOn 0x021305 (state 0 false true 0xC8 0x64)) = some (0x64, false, false) := by decide
theorem test_and_step : resultIn 3 (stepOn 0x021306 (state 0 true true 0xCC 0xAA)) = some (0x88, false, false) := by decide
theorem test_and_zero : resultIn 3 (stepOn 0x021306 (state 0 false true 0xF0 0x0F)) = some (0, true, false) := by decide
theorem test_or_step : resultIn 3 (stepOn 0x021307 (state 0 true true 0xCC 0xAA)) = some (0xEE, false, false) := by decide
theorem test_xor_step : resultIn 3 (stepOn 0x021308 (state 0 true true 0xCC 0xAA)) = some (0x66, false, false) := by decide
/-- `xor r1, r1, r1`: a source that is the destination. -/
theorem test_xor_self : resultIn 1 (stepOn 0x011108 (state 0 false true 3 0)) = some (0, true, false) := by decide

/-- `addi r1, r1, 1` from 255 (S2). -/
theorem test_addi_wraps : resultIn 1 (stepOn 0x011144 (state 0 false false 255 0)) = some (0, true, true) := by decide
/-- `addi r1, r1, 1` at the top address: no write. -/
theorem test_addi_at_the_top :
    register 1 (stepOn 0x011144 (state 0xFFFF false false 255 0)) = some 255
      ∧ statusOf (stepOn 0x011144 (state 0xFFFF false false 255 0)) = some (.faulted .pcOverflow 0xFFFF) := by decide
/-- `andi r2, r1, 15`. -/
theorem test_andi_step : resultIn 2 (stepOn 0x0F1246 (state 0 true true 0xF0 9)) = some (0, true, false) := by decide
/-- `ori r2, r1, 15`. -/
theorem test_ori_step : resultIn 2 (stepOn 0x0F1247 (state 0 true true 0xF0 9)) = some (0xFF, false, false) := by decide
/-- `xori r2, r1, 255`. -/
theorem test_xori_step : resultIn 2 (stepOn 0xFF1248 (state 0 true true 0x5A 9)) = some (0xA5, false, false) := by decide

theorem test_jmp_step : control (stepOn 0x005089 (state 2 false true 0 0)) = some (5, true, false, .running) := by decide
theorem test_jmp_at_the_top : control (stepOn 0x000089 (state 0xFFFF false true 0 0)) = some (0, true, false, .running) := by
  decide
theorem test_bz_taken : control (stepOn 0x00408A (state 1 true true 0 0)) = some (4, true, true, .running) := by decide
theorem test_bz_not_taken : control (stepOn 0x00408A (state 1 false true 0 0)) = some (2, false, true, .running) := by decide
theorem test_bnz_taken : control (stepOn 0x00108B (state 3 false false 0 0)) = some (1, false, false, .running) := by decide
theorem test_bnz_not_taken : control (stepOn 0x00108B (state 3 true false 0 0)) = some (4, true, false, .running) := by decide

/-! ## Faults (95_test_vectors.md sections 4 and 6) -/

theorem test_fetch_out_of_bounds :
    statusOf (step { State.reset with pc := 9, progLen := 1 }) = some (.faulted .pcOutOfBounds 9)
      ∧ statusOf (step State.reset) = some (.faulted .pcOutOfBounds 0) := by decide

theorem test_illegal_word :
    control (stepOn 0x0000C0 (state 1 false false 1 0)) = some (1, false, false, .faulted .invalidInstruction 1) := by decide

theorem test_operand_faults :
    statusOf (exec (.mv (.reg 16) (.reg 0)) (state 0 true false 0 0)) = some (.faulted .invalidRegister 16)
      ∧ statusOf (exec (.add (.reg 1) (.reg 2) (.reg 255)) (state 0 true false 0 0)) = some (.faulted .invalidRegister 255)
      ∧ statusOf (exec (.add (.reg 16) (.reg 2) (.imm8 0)) (state 5 true false 0 0)) = some (.faulted .invalidOperands 5)
      ∧ statusOf (exec (.jmp (.imm12 4096)) (state 5 true false 0 0)) = some (.faulted .invalidOperands 5)
      ∧ statusOf (execSource (.label "a") (state 5 true false 0 0)) = some (.faulted .invalidInstruction 5) := by decide

/-- The order of the register checks: `rs1`, `rs2`, `rd` (60_exceptions.md rule R160). -/
theorem test_register_check_order :
    statusOf (exec (.add (.reg 18) (.reg 16) (.reg 17)) (state 0 true false 0 0)) = some (.faulted .invalidRegister 16)
      ∧ statusOf (exec (.add (.reg 18) (.reg 1) (.reg 17)) (state 0 true false 0 0)) = some (.faulted .invalidRegister 17) := by
  decide

/-- A halted core does not change (95_test_vectors.md section 6, second row). -/
theorem test_halted_is_sticky :
    control (step { state 3 false true 0 0 with status := .halted }) = some (3, false, true, .halted) := by decide

/-- The codes of the table of 60_exceptions.md rule R150. -/
theorem test_fault_codes :
    [Fault.invalidRegister, .invalidOperands, .invalidInstruction, .pcOutOfBounds, .pcOverflow].map
        (fun k => ((outputs { State.reset with status := .faulted k 7 }).faultCode,
          (outputs { State.reset with status := .faulted k 7 }).faultInfo))
      = [(1, 7), (2, 7), (3, 7), (4, 7), (5, 7)] := by decide

/-- The observation ports of 70_reset_and_hazards.md rule R185: `obs_x[1]` is `x[1]`, `obs_x[2]` is `x[2]`. -/
theorem test_observation_ports :
    let o := outputs (state 9 false true 3 5)
    o.imemAddr = 9 ∧ o.obsPc = 9 ∧ o.obsZ = false ∧ o.obsV = true ∧ o.obsX[0] = 3 ∧ o.obsX[1] = 5 ∧ o.faultCode = 0 := by
  decide

/-! ## The assembler and the loader (95_test_vectors.md section 7) -/

/-- A counted loop, after parsing. -/
def loopSource : List SourceInstr :=
  [.instr (.addi (.reg 1) (.reg 0) (.imm8 5)), .label "loop", .instr (.addi (.reg 1) (.reg 1) (.imm8 255)),
    .instr (.bnz (.label "loop")), .instr .halt]

/-- The same, resolved. -/
def loopProgram : List Instr :=
  [.addi (.reg 1) (.reg 0) (.imm8 5), .addi (.reg 1) (.reg 1) (.imm8 255), .bnz (.imm12 1), .halt]

theorem test_resolve_loop : valueOf (resolve loopSource) = some loopProgram := by decide

theorem test_encode_loop : valueOf (encodeProgram loopProgram) = some [0x050144, 0xFF1144, 0x00108B, 0x000000] := by decide

theorem test_symbol_errors :
    errorOf (resolve [.label "a", .instr .nop, .label "a", .instr .halt]) = some (.duplicateLabel "a")
      ∧ errorOf (resolve [.instr (.jmp (.label "nowhere")), .instr .halt]) = some (.undefinedLabel "nowhere") := by decide

/-- Digits, hexadecimal and case (30_encoding.md rules R73, R74, R76, R84). -/
theorem test_parse_addi :
    valueOf (parseLine [' ', 'A', 'd', 'd', 'I', ' ', 'r', '0', '1', ',', 'r', '1', '6', ' ', ',', '0', 'x', 'f', 'F', ';', 'x'])
      = some (some (.instr (.addi (.reg 1) (.reg 16) (.imm8 255)))) := by decide

theorem test_parse_errors :
    errorOf (parseLinesFrom 1 [['h', 'a', 'l', 't'], ['f', 'r', 'o', 'b', ' ', 'r', '1']]) = some ⟨2, .unknownMnemonic⟩
      ∧ errorOf (parseLinesFrom 1 [['j', 'm', 'p', ' ', '4', '0', '9', '6']]) = some ⟨1, .outOfRange⟩
      ∧ errorOf (parseLinesFrom 1 [['m', 'v', ' ', 'r', '1']]) = some ⟨1, .operandCount⟩ := by decide

theorem test_container_bytes :
    programFile .little [0x021304] = [0x04, 0x13, 0x02, 0x00] ∧ programFile .big [0x021304] = [0x00, 0x02, 0x13, 0x04]
      ∧ errorOf (wordOfContainer 0x01021304) = some (.containerTooWide 0x01021304) := by decide

/-- A loaded program is read word by word, and its end is the end of the space (20_memory.md rule R31). -/
theorem test_boot :
    (valueOf (bootProgram [0x000001, 0x000000])).map (fun s => (imemRead s 0, imemRead s 1, imemRead s 2))
      = some (some 0x000001, some 0x000000, none) := by decide

/-! ## Witnesses: the hypotheses of the statements can be met -/

/-- The words of a counted loop, booted. -/
def booted : State := { State.reset with imem := Memory.ofWords 0 [0x050144, 0xFF1144, 0x00108B], progLen := 4 }

theorem witness_booted : bootProgram [0x050144, 0xFF1144, 0x00108B, 0x000000] = .ok booted := by rfl

theorem witness_DecodeAndEncodeAreInverse :
    OpMap.default.Injective ∧ (Instr.add (.reg 15) (.reg 0) (.reg 1)).wellFormed = true
      ∧ decodeWith OpMap.default 0x0FFF04 = .instr (.add (.reg 15) (.reg 15) (.reg 15)) :=
  ⟨OpMap.default_injective, by decide, by decide⟩

theorem witness_FieldsCanBeSetInAnyOrder :
    8 + 4 ≤ 24 ∧ 2 ^ 4 ≤ 16 ∧ 15 < 2 ^ 4 ∧ [(8, 4, 3), (16, 8, 255)].Perm [(16, 8, 255), (8, 4, 3)]
      ∧ (∀ f ∈ [(8, 4, 3), (16, 8, 255)], f.1 + f.2.1 ≤ 24 ∧ f.2.2 < 2 ^ f.2.1)
      ∧ [(8, 4, 3), (16, 8, 255)].Pairwise (fun f g => f.1 + f.2.1 ≤ g.1 ∨ g.1 + g.2.1 ≤ f.1) :=
  ⟨by decide, by decide, by decide, List.Perm.swap _ _ _, by decide, by decide⟩

theorem witness_EncoderRefusesWrongOperandKinds : (Instr.jmp (.label "a")).wellShaped = false := by decide

theorem witness_EncoderRefusesExactlyTheIllFormed :
    (Instr.jmp (.imm12 4096)).wellShaped = true ∧ (Instr.jmp (.imm12 4096)).wellFormed = false
      ∧ (Instr.mv (.reg 16) (.reg 0)).wellShaped = true ∧ (Instr.mv (.reg 16) (.reg 0)).wellFormed = false
      ∧ (Instr.jmp (.imm12 4095)).wellFormed = true ∧ (Instr.jmp (.label "a")).wellShaped = false
      ∧ valueOf (encode (.jmp (.label "a"))) = none := by decide

theorem witness_EncodedProgramKeepsOrderAndAddresses :
    encodeProgramWith OpMap.default loopProgram = .ok [0x050144, 0xFF1144, 0x00108B, 0x000000]
      ∧ loopProgram[3]? = some .halt ∧ loopProgram.length ≤ 65536
      ∧ encodeProgramWith OpMap.default [.nop, .jmp (.imm12 4096)] = .error .overflow := ⟨by rfl, by rfl, by decide, by rfl⟩

theorem witness_StepRunsTheDecodedInstruction :
    booted.status = .running ∧ fetch booted = some 0x050144
      ∧ decode 0x050144 = .instr (.addi (.reg 1) (.reg 0) (.imm8 5)) := by decide

theorem witness_PlacedWordRunsNext :
    booted.memoryOk = true ∧ decode 0x000001 = .instr .nop ∧ 3 ≠ booted.pc.toNat ∧ 3 < booted.progLen := by decide

theorem witness_StoppedCoreNeverChanges :
    { booted with status := .halted }.status ≠ .running
      ∧ { booted with status := .faulted .pcOverflow 0xFFFF }.status ≠ .running := by decide

/-- A core halted at the HALT of the program. -/
def haltedAtHalt : State := { booted with pc := 3, status := .halted }

/-- A core faulted past the end of the program. -/
def faultedPastEnd : State := { booted with pc := 4, status := .faulted .pcOutOfBounds 4 }

/-- A core faulted at an illegal word. -/
def faultedAtIllegal : State := { fetching 0x0000C0 booted with status := .faulted .invalidInstruction 0 }

/-- A core faulted at the top address. -/
def faultedAtTop : State := { state 0xFFFF false true 0 0 with status := .faulted .pcOverflow 0xFFFF }

theorem witness_StepKeepsStatusExplained :
    StatusExplained OpMap.default booted ∧ StatusExplained OpMap.default haltedAtHalt
      ∧ StatusExplained OpMap.default faultedPastEnd ∧ StatusExplained OpMap.default faultedAtIllegal
      ∧ StatusExplained OpMap.default faultedAtTop
      ∧ stepWith OpMap.default haltedAtHalt = .next haltedAtHalt :=
  ⟨trivial, ⟨rfl, 0x000000, by decide, by decide⟩, ⟨by decide, by decide⟩, ⟨by decide, 0x0000C0, by decide, by decide⟩,
    ⟨by decide, by decide, by decide⟩, rfl⟩

theorem witness_StepKeepsTheProgram :
    booted.memoryOk = true ∧ stepWith OpMap.default haltedAtHalt = .next haltedAtHalt
      ∧ runWith OpMap.default 0 booted = .next (.outOfFuel booted) := ⟨by decide, by rfl, by rfl⟩

theorem witness_FaultsArePrecise :
    { booted with pc := 4 }.status = .running
      ∧ stepWith OpMap.default { booted with pc := 4 } = .next faultedPastEnd
      ∧ faultedPastEnd.status = .faulted .pcOutOfBounds 4 := ⟨by rfl, by rfl, by rfl⟩

/-- The boundary: `pc = PROG_LEN`, a jump to `PROG_LEN`, and the empty program. -/
theorem witness_FetchBeyondTheProgramFaults :
    { booted with pc := 4 }.progLen ≤ ({ booted with pc := 4 } : State).pc.toNat
      ∧ (fetching 0x004089 booted).status = .running ∧ fetch (fetching 0x004089 booted) = some 0x004089
      ∧ decode 0x004089 = .instr (.jmp (targetOf 4)) ∧ (fetching 0x004089 booted).progLen ≤ (4 : BitVec 12).toNat
      ∧ State.reset.status = .running ∧ State.reset.progLen = 0 := by decide

theorem witness_IllegalWordOrLabelFaults :
    (fetching 0x0000C0 booted).status = .running ∧ fetch (fetching 0x0000C0 booted) = some 0x0000C0
      ∧ decodeWith OpMap.default 0x0000C0 = .illegal 0x0000C0 := by decide

theorem witness_WrongOperandKindFaults :
    (Instr.add (.reg 1) (.reg 2) (.imm8 3)).wellShaped = false
      ∧ decodeWith OpMap.default 0xFFF089 = .instr (.jmp (.imm12 4095)) ∧ booted.status = .running := by decide

/-- The boundary: index 16, in each slot; and index 15 of a decoded word. -/
theorem witness_RegisterAboveFifteenFaults :
    (Instr.add (.reg 16) (.reg 1) (.reg 2)).wellShaped = true
      ∧ (∃ n ∈ (Instr.add (.reg 16) (.reg 1) (.reg 2)).checkedRegisters, 15 < n.toNat)
      ∧ (∃ n ∈ (Instr.add (.reg 1) (.reg 16) (.reg 2)).checkedRegisters, 15 < n.toNat)
      ∧ (∃ n ∈ (Instr.add (.reg 1) (.reg 2) (.reg 16)).checkedRegisters, 15 < n.toNat)
      ∧ decodeWith OpMap.default 0x0FFF04 = .instr (.add (.reg 15) (.reg 15) (.reg 15))
      ∧ 15 ∈ (Instr.add (.reg 15) (.reg 15) (.reg 15)).checkedRegisters := by decide

theorem witness_FaultPayloadAndCheckOrder :
    (Instr.bz (.reg 1)).wellShaped = false
      ∧ Operand.imm12 4096 ∈ (Instr.jmp (.imm12 4096)).operands ∧ 4095 < (4096 : BitVec 16).toNat
      ∧ (Instr.add (.reg 18) (.reg 1) (.reg 17)).wellShaped = true
      ∧ (Instr.add (.reg 18) (.reg 1) (.reg 17)).checkedRegisters.find? (fun k => decide (15 < k.toNat)) = some 17 := by decide

theorem witness_SuccessorOfTheTopAddressFaults :
    (state 0xFFFF false true 0 0).pc = 0xFFFF ∧ (state 0xFFFF false true 0 0).status = .running
      ∧ Instr.nop.wellFormed = true ∧ Instr.nop.goesOn false = true
      ∧ (Instr.bz (.imm12 7)).wellFormed = true ∧ (Instr.bz (.imm12 7)).goesOn false = true
      ∧ (Instr.bz (.imm12 7)).goesOn true = false ∧ (Instr.bnz (.imm12 7)).goesOn false = false
      ∧ (Instr.bnz (.imm12 7)).goesOn true = true
      ∧ Instr.halt.wellFormed = true ∧ Instr.halt.goesOn true = false := by decide

/-- Inside the program, at its end, and with `imem_valid` low. -/
theorem witness_CoreOnItsPortsIsTheMachine :
    (⟨false, true, 0x050144⟩ : Inputs).Consistent booted ∧ (⟨false, false, 0x123456⟩ : Inputs).Consistent { booted with pc := 4 }
      ∧ (⟨false, false, 0x123456⟩ : Inputs).imemValid = false :=
  ⟨by unfold Inputs.Consistent; decide, by unfold Inputs.Consistent; decide, rfl⟩

theorem witness_OutputsShowTheStatus :
    faultedPastEnd.status = .faulted .pcOutOfBounds 4 ∧ (outputs booted).faulted = false
      ∧ (outputs haltedAtHalt).faulted = false := by decide

/-- The hypotheses on `pc`, at the boundary, of NopResetsTheFlagsAndGoesOn, MvCopiesTheRegister, NotComplementsTheRegister,
AddLeavesTheSumModulo256, SubLeavesTheDifferenceModulo256, AndLeavesTheBitwiseAnd, OrLeavesTheBitwiseOr, XorLeavesTheBitwiseXor,
AddiLeavesTheSumModulo256, AndiLeavesTheBitwiseAnd, OriLeavesTheBitwiseOr and XoriLeavesTheBitwiseXor. -/
theorem witness_pc_hypotheses :
    (state 0xFFFE true false 0 0).pc ≠ 0xFFFF ∧ (state 0xFFFF true false 0 0).pc = 0xFFFF := by decide

theorem witness_MvCopiesTheRegister_and_NotComplementsTheRegister :
    ((Operand.imm8 1).isReg && (Operand.reg 1).isReg) = false ∧ ((Operand.reg 1).isReg && (Operand.label "a").isReg) = false
      ∧ (15 < (16 : Byte).toNat ∨ 15 < (0 : Byte).toNat) ∧ (15 < (0 : Byte).toNat ∨ 15 < (255 : Byte).toNat) := by decide

/-- A jump to its own address. -/
theorem witness_JmpGoesToTheAbsoluteTarget :
    booted.status = .running ∧ booted.progLen ≤ (4 : BitVec 12).toNat
      ∧ (fetching 0x000089 booted).status = .running ∧ (fetching 0x000089 booted).pc.toNat = (0 : BitVec 12).toNat
      ∧ fetch (fetching 0x000089 booted) = some 0x000089 ∧ decode 0x000089 = .instr (.jmp (targetOf 0)) := by decide

theorem witness_BzBranchesWhenZeroIsSet_and_BnzBranchesWhenZeroIsClear :
    (booted.flags.zero = true ∧ booted.status = .running ∧ booted.progLen ≤ (4095 : BitVec 12).toNat)
      ∧ ({ booted with flags := ⟨false, true⟩ }.flags.zero = false ∧ { booted with flags := ⟨false, true⟩ }.pc ≠ 0xFFFF)
      ∧ ((state 0xFFFF false true 0 0).flags.zero = false ∧ (state 0xFFFF false true 0 0).pc = 0xFFFF)
      ∧ ((state 0xFFFF true true 0 0).flags.zero = true ∧ (state 0xFFFF true true 0 0).pc = 0xFFFF) := by decide

theorem witness_ExecChangesOnlyWhatTheInstructionNames :
    exec .halt booted = .next { booted with status := .halted } ∧ Instr.halt.destination ≠ some 1
      ∧ (Instr.add (.reg 3) (.reg 1) (.reg 2)).destination ≠ some 4
      ∧ exec (.bz (.imm12 2)) booted = .next { booted with pc := 2 } ∧ (Instr.bz (.imm12 2)).isBranch = true :=
  ⟨by rfl, by decide, by decide, by rfl, by decide⟩

/-- `addi r0, r0, 0`. -/
theorem witness_RegisterZeroIsHardwired :
    (Instr.addi (.reg 0) (.reg 0) (.imm8 0)).wellFormed = true
      ∧ (Instr.addi (.reg 0) (.reg 0) (.imm8 0)).destination = some 0 ∧ booted.pc ≠ 0xFFFF
      ∧ exec (.addi (.reg 0) (.reg 0) (.imm8 0)) booted = .next { booted with pc := 1 } :=
  ⟨by decide, by decide, by decide, by rfl⟩

theorem witness_OverflowFlagIsNeverRead : SameButOverflow booted { booted with flags := ⟨true, true⟩ } := by rfl

theorem witness_OnlyBranchesReadTheZeroFlag :
    (Instr.sub (.reg 1) (.reg 2) (.reg 3)).wellFormed = true ∧ (Instr.sub (.reg 1) (.reg 2) (.reg 3)).isBranch = false
      ∧ booted.pc ≠ 0xFFFF := by decide

/-- Falling through from 4095, and standing still at 4096. -/
theorem witness_HighAddressesAreReachedByFallingThrough :
    stepWith OpMap.default (fetching 0x000001 (state 4095 true false 0 0))
        = .next { fetching 0x000001 (state 4095 true false 0 0) with pc := 4096 }
      ∧ 4096 ≤ ({ fetching 0x000001 (state 4095 true false 0 0) with pc := 4096 } : State).pc.toNat
      ∧ stepWith OpMap.default (state 4096 true false 0 0) = .next { state 4096 true false 0 0 with status := .halted } :=
  ⟨by rfl, by decide, by rfl⟩

theorem witness_MoreFuelGivesTheSameEnd :
    runWith OpMap.default 1 { booted with pc := 3 } = .next (.ended haltedAtHalt)
      ∧ runWith OpMap.default 0 booted = .next (.outOfFuel booted) := ⟨by rfl, by rfl⟩

theorem witness_EndedRunsAreExplained :
    { booted with pc := 3 }.status = .running ∧ RunEndsIn OpMap.default { booted with pc := 3 } haltedAtHalt
      ∧ haltedAtHalt.Succeeded
      ∧ RunEndsIn OpMap.default { booted with pc := 4 } faultedPastEnd
      ∧ faultedPastEnd.status = .faulted .pcOutOfBounds 4 := ⟨rfl, ⟨1, by rfl⟩, rfl, ⟨1, by rfl⟩, rfl⟩

theorem witness_AbstractAndWordLevelsAgree :
    OpMap.default.Injective
      ∧ encodeProgramWith OpMap.default loopProgram = .ok [0x050144, 0xFF1144, 0x00108B, 0x000000]
      ∧ loadProgram [0x050144, 0xFF1144, 0x00108B, 0x000000] State.reset = .ok booted :=
  ⟨OpMap.default_injective, by rfl, by rfl⟩

theorem witness_StripRecordsTheAddressOfEachLabel :
    (labelNames loopSource).Nodup ∧ loopSource[1]? = some (.label "loop")
      ∧ ¬ (labelNames [.label "a", .instr .nop, .label "a"]).Nodup := by decide

/-- A label that is there, one that is missing, one at 4096, and a label declaration that reaches pass 2. -/
theorem witness_BranchLabelsBecomeTheirAddresses :
    replaceSymbols [("a", 4095)] [.instr (.jmp (.label "a"))] = .ok [.jmp (.imm12 4095)]
      ∧ SourceInstr.label "a" ∈ [SourceInstr.label "a"]
      ∧ SourceInstr.instr (.bz (.label "b")) ∈ [SourceInstr.instr (.bz (.label "b"))]
      ∧ (Instr.bz (.label "b")).mnemonic.format = .j ∧ (Instr.bz (.label "b")).operands = [.label "b"]
      ∧ lookupSymbol [("a", 4095)] "b" = none ∧ lookupSymbol [("b", 4096)] "b" = some 4096 := by
  refine ⟨by rfl, ?_, ?_, ?_, ?_, ?_, ?_⟩ <;> decide

theorem witness_CompiledProgramsAreResolvedAndWellShaped : compile "jmp 4095" = .ok [.jmp (.imm12 4095)] := by
  rfl

theorem witness_BlankAndCommentLinesOccupyNoAddress :
    [' ', '\t'].all isBlank = true ∧ parseLine [' ', ';', 'x'] = .ok none := ⟨by decide, by rfl⟩

theorem witness_FirstFailedLineFailsTheProgram :
    parseLine ['n', 'o', 'p'] = .ok (some (.instr .nop)) ∧ parseLine ['m', 'v'] = .error .operandCount
      ∧ (trim (stripComment ['f', 'o', 'o'])).isEmpty = false ∧ (trim (stripComment ['f', 'o', 'o'])).getLast? ≠ some ':'
      ∧ mnemonicOfText ((trim (stripComment ['f', 'o', 'o'])).takeWhile (fun c => !isBlank c)) = none :=
  ⟨by rfl, by rfl, by decide, by decide, by decide⟩

theorem witness_ProgramFilesRoundTrip :
    2 ^ 24 ≤ (0x01000000 : Container).toNat ∧ (0x00FFFFFF : Container).toNat < 2 ^ 24 := by decide

end Sys2Proof.Tests
end

section
/-! PROOFS. Register 0 (10_state.md rule R16): what a step leaves of the registers it does not write, and that a destination
decides nothing but where the result goes. -/

namespace Sys2Proof.Machine

/-! ## Registers that are not written -/

/-- A commit changes no register but the one its effect writes, and never register 0. -/
theorem readReg_commit_of_not_written {e : Effect} {r : RegIndex} (h : r = 0 ∨ e.write.map Prod.fst ≠ some r)
    (s : State) : readReg (commit e s) r = readReg s r := by
  have hdata : readReg (commitData e s) r = readReg s r := by
    rw [readReg_commitData]
    cases hw : e.write with
    | none => rfl
    | some p =>
      have hskip : ¬(r = p.1 ∧ r ≠ 0) := by
        rintro ⟨rfl, hr⟩
        exact h.elim hr (fun hne => hne (by simp [hw]))
      exact if_neg hskip
  rcases commit_cases e s with ⟨-, hc⟩ | ⟨t, -, hc⟩ | ⟨-, p, hc, -⟩ | ⟨-, -, hc⟩ <;> rw [hc]
  · exact (readReg_congr rfl r).trans hdata
  · exact (readReg_congr rfl r).trans hdata
  · exact (readReg_congr rfl r).trans hdata
  · exact readReg_raise _ _ s r

/-- An instruction changes no register but its destination, and never register 0, whether it completes or faults. -/
theorem readReg_exec_of_not_destination {i : Instr} {s t : State} {r : RegIndex} (ht : exec i s = .next t)
    (h : r = 0 ∨ i.destination ≠ some r) : readReg t r = readReg s r := by
  rcases exec_cases i s with ⟨f, -, hf⟩ | ⟨e, he, hc⟩
  · obtain ⟨kind, info, hraise⟩ := raiseOperand_eq f s
    cases ht.symm.trans hf
    rw [hraise]
    exact readReg_congr rfl r
  · cases ht.symm.trans hc
    exact readReg_commit_of_not_written (by rwa [he.write]) s

/-! ## One instruction with different destinations -/

/-- A slot that names a register is that register's own operand. -/
theorem eq_regOf_of_register? {o : Operand} {d : RegIndex} (h : o.register? = some d) : o = regOf d := by
  cases o with
  | reg n =>
    by_cases hn : n.toNat ≤ 15
    · have hd : n.setWidth 4 = d := by simpa [Operand.register?, hn] using h
      rw [regOf, ← hd, ← (regIndex_ok (regIndex_le hn)).1]
    · simp [Operand.register?, hn] at h
  | imm8 k => cases h
  | imm12 t => cases h
  | label n => cases h

/-- Redirecting an instruction to the destination it has changes nothing. -/
theorem redirect_destination {i : Instr} {d : RegIndex} (h : i.destination = some d) : i.redirect d = i := by
  cases i with
  | halt | nop | jmp _ | bz _ | bnz _ => cases h
  | mv rd _ | not rd _ | add rd _ _ | sub rd _ _ | and rd _ _ | or rd _ _ | xor rd _ _
  | addi rd _ _ | andi rd _ _ | ori rd _ _ | xori rd _ _ =>
    simp only [Instr.redirect, ← eq_regOf_of_register? (o := rd) h]

/-- Operands in order give the ALU the same inputs whatever register takes the result. -/
theorem runRR_any_destination (op : AluOp) {rd rs1 : Operand}
    (hw : (rd.isReg && rs1.isReg && [rd, rs1].all Operand.inRange) = true) (s : State) :
    ∃ x y, ∀ d, runRR op (regOf d) rs1 s = .next (commit (aluEffect op d x y) s) := by
  obtain ⟨-, a, -, rfl⟩ := wellFormed_rr hw
  exact ⟨_, _, fun d => runRR_regOf op d a s⟩

theorem runRRR_any_destination (op : AluOp) {rd rs1 rs2 : Operand}
    (hw : (rd.isReg && rs1.isReg && rs2.isReg && [rd, rs1, rs2].all Operand.inRange) = true) (s : State) :
    ∃ x y, ∀ d, runRRR op (regOf d) rs1 rs2 s = .next (commit (aluEffect op d x y) s) := by
  obtain ⟨-, a, b, -, rfl, rfl⟩ := wellFormed_rrr hw
  exact ⟨_, _, fun d => runRRR_regOf op d a b s⟩

theorem runI_any_destination (op : AluOp) {rd rs1 imm : Operand}
    (hw : (rd.isReg && rs1.isReg && imm.isImm8 && [rd, rs1, imm].all Operand.inRange) = true) (s : State) :
    ∃ x y, ∀ d, runI op (regOf d) rs1 imm s = .next (commit (aluEffect op d x y) s) := by
  obtain ⟨-, a, k, -, rfl, rfl⟩ := wellFormed_i hw
  exact ⟨_, _, fun d => runI_regOf op d a k s⟩

/-- A well-formed instruction with a destination commits one ALU effect, of which the destination decides only the register
that takes the result. -/
theorem exec_redirect {i : Instr} {r : RegIndex} (hw : i.wellFormed = true) (hd : i.destination = some r) (s : State) :
    ∃ op x y, ∀ d, exec (i.redirect d) s = .next (commit (aluEffect op d x y) s) := by
  cases i with
  | halt | nop | jmp _ | bz _ | bnz _ => cases hd
  | mv => exact ⟨.pass, runRR_any_destination .pass hw s⟩
  | not => exact ⟨.not, runRR_any_destination .not hw s⟩
  | add => exact ⟨.add, runRRR_any_destination .add hw s⟩
  | sub => exact ⟨.sub, runRRR_any_destination .sub hw s⟩
  | and => exact ⟨.and, runRRR_any_destination .and hw s⟩
  | or => exact ⟨.or, runRRR_any_destination .or hw s⟩
  | xor => exact ⟨.xor, runRRR_any_destination .xor hw s⟩
  | addi => exact ⟨.add, runI_any_destination .add hw s⟩
  | andi => exact ⟨.and, runI_any_destination .and hw s⟩
  | ori => exact ⟨.or, runI_any_destination .or hw s⟩
  | xori => exact ⟨.xor, runI_any_destination .xor hw s⟩

/-- Below the top address, the flags after an ALU effect come from the ALU's output and not from the register written
(40_execution_cycle.md rule R97). -/
theorem commit_aluEffect_flags (op : AluOp) (d : RegIndex) (a b : Byte) {s : State} (hpc : s.pc ≠ 0xFFFF) :
    (commit (aluEffect op d a b) s).flags = aluFlags (alu op a b) := by
  obtain ⟨p, hp, -⟩ := commit_sequential (e := aluEffect op d a b) rfl hpc
  rw [hp]
  exact commitData_flags _ s

/-- Settles O43: the instruction and its redirected twin commit the same ALU result, and register 0 is no register a commit
changes. -/
theorem registerZeroIsHardwired : Obligations.RegisterZeroIsHardwired := by
  unfold Obligations.RegisterZeroIsHardwired
  refine ⟨readReg_zero, fun i s t hd ht r => ?_, fun i s d hw hd hpc => ?_⟩
  · refine readReg_exec_of_not_destination ht ?_
    rw [hd, ne_eq, Option.some.injEq, eq_comm]
    exact em _
  · obtain ⟨op, x, y, hexec⟩ := exec_redirect hw hd s
    have hi : exec i s = .next (commit (aluEffect op 0 x y) s) := redirect_destination hd ▸ hexec 0
    have hleaves := commit_aluEffect_leaves op 0 x y hpc
    refine ⟨_, _, hi, hexec d, ?_, hleaves.pc, hleaves.status⟩
    rw [commit_aluEffect_flags op 0 x y hpc, commit_aluEffect_flags op d x y hpc]

end Sys2Proof.Machine
end

section
/-! PROOFS. Decode and encode are inverse (30_encoding.md rule R64): the encoder's word is the one word that carries the
instruction's fields, and the decoder answers an instruction exactly on a word that carries it. -/

namespace Sys2Proof

/-! ## Fields and words as numbers -/

/-- A field as arithmetic on the word's value. -/
theorem field_toNat (w : Word24) (lo width : Nat) : (field w lo width).toNat = w.toNat / 2 ^ lo % 2 ^ width := by
  rw [field, BitVec.extractLsb'_toNat, Nat.shiftRight_eq_div_pow]

/-- Putting a value above all the bits in use adds it at its place. -/
theorem toNat_putAbove {n lo : Nat} {u : Word24} (hu : u.toNat < 2 ^ lo) (x : BitVec n) (hn : lo + n ≤ 24) :
    (u ||| x.setWidth 24 <<< lo).toNat = 2 ^ lo * x.toNat + u.toNat := by
  have hx : 2 ^ lo * x.toNat < 2 ^ 24 :=
    calc 2 ^ lo * x.toNat < 2 ^ lo * 2 ^ n := Nat.mul_lt_mul_of_pos_left x.isLt (by positivity)
      _ = 2 ^ (lo + n) := (Nat.pow_add ..).symm
      _ ≤ 2 ^ 24 := Nat.pow_le_pow_right (by omega) hn
  rw [BitVec.toNat_or, BitVec.toNat_shiftLeft, BitVec.toNat_setWidth_of_le (by omega), Nat.shiftLeft_eq, Nat.mul_comm,
    Nat.mod_eq_of_lt hx, Nat.or_comm, Nat.two_pow_add_eq_or_of_lt hu]

theorem selectorWord_toNat (c : OpCode) : (selectorWord c).toNat = 2 ^ 6 * c.funct.toNat + c.opcode.toNat := by
  have hop : (c.opcode.setWidth 24).toNat = c.opcode.toNat := BitVec.toNat_setWidth_of_le (by omega)
  rw [selectorWord, toNat_putAbove (hop ▸ c.opcode.isLt) _ (by omega), hop]

theorem selectorWord_lt (c : OpCode) : (selectorWord c).toNat < 2 ^ 8 := by
  have := c.opcode.isLt
  have := c.funct.isLt
  rw [selectorWord_toNat]
  omega

/-- The first two register fields above the selector, as numbers. -/
theorem registerWord_toNat (c : OpCode) (d a : RegIndex) :
    (selectorWord c ||| d.setWidth 24 <<< 8 ||| a.setWidth 24 <<< 12).toNat
      = 2 ^ 12 * a.toNat + (2 ^ 8 * d.toNat + (selectorWord c).toNat) := by
  have hd := toNat_putAbove (selectorWord_lt c) d (by omega)
  have hc := selectorWord_lt c
  rw [toNat_putAbove (by omega) a (by omega), hd]

theorem regOf_eq_iff {i j : RegIndex} : regOf i = regOf j ↔ i.toNat = j.toNat := by
  rw [regOf, regOf, Operand.reg.injEq, ← BitVec.toNat_inj, BitVec.toNat_setWidth_of_le (by omega),
    BitVec.toNat_setWidth_of_le (by omega)]

theorem opcodeField_eq_iff {w : Word24} {c : OpCode} :
    opcodeField w = c ↔ w.toNat % 2 ^ 8 = (selectorWord c).toNat := by
  have hop := c.opcode.isLt
  have hfn := c.funct.isLt
  rw [selectorWord_toNat]
  cases c
  simp only [opcodeField, OpCode.mk.injEq, ← BitVec.toNat_inj, field_toNat]
  omega

theorem rdOperand_eq_iff {w : Word24} {d : RegIndex} : rdOperand w = regOf d ↔ w.toNat / 2 ^ 8 % 2 ^ 4 = d.toNat := by
  rw [← field_toNat]
  exact regOf_eq_iff

theorem rs1Operand_eq_iff {w : Word24} {a : RegIndex} :
    rs1Operand w = regOf a ↔ w.toNat / 2 ^ 12 % 2 ^ 4 = a.toNat := by
  rw [← field_toNat]
  exact regOf_eq_iff

theorem rs2Operand_eq_iff {w : Word24} {b : RegIndex} :
    rs2Operand w = regOf b ↔ w.toNat / 2 ^ 16 % 2 ^ 4 = b.toNat := by
  rw [← field_toNat]
  exact regOf_eq_iff

theorem imm8Operand_eq_iff {w : Word24} {k : Byte} :
    imm8Operand w = .imm8 k ↔ w.toNat / 2 ^ 16 % 2 ^ 8 = k.toNat := by
  rw [← field_toNat, BitVec.toNat_inj, imm8Operand, Operand.imm8.injEq]

theorem imm12Operand_eq_iff {w : Word24} {t : BitVec 12} :
    imm12Operand w = targetOf t ↔ w.toNat / 2 ^ 12 % 2 ^ 12 = t.toNat := by
  rw [← field_toNat, imm12Operand, targetOf, Operand.imm12.injEq, ← BitVec.toNat_inj,
    BitVec.toNat_setWidth_of_le (by omega), BitVec.toNat_setWidth_of_le (by omega)]

/-- Unused bits that are zero, as arithmetic on the word's value. -/
theorem decide_field_eq_zero_iff {w : Word24} {lo width : Nat} :
    decide (field w lo width = 0) = true ↔ w.toNat / 2 ^ lo % 2 ^ width = 0 := by
  rw [decide_eq_true_eq, ← BitVec.toNat_inj, field_toNat]
  rfl

/-! ## The one word with given fields, in each format -/

theorem fields_n_iff {w : Word24} {c : OpCode} :
    (opcodeField w = c ∧ unusedBitsZero .n w = true) ↔ w = selectorWord c := by
  have hc := selectorWord_lt c
  rw [opcodeField_eq_iff, unusedBitsZero, decide_field_eq_zero_iff, ← BitVec.toNat_inj]
  omega

theorem fields_rr_iff {w : Word24} {c : OpCode} {d a : RegIndex} :
    (opcodeField w = c ∧ unusedBitsZero .rr w = true ∧ rdOperand w = regOf d ∧ rs1Operand w = regOf a)
      ↔ w = selectorWord c ||| d.setWidth 24 <<< 8 ||| a.setWidth 24 <<< 12 := by
  have hc := selectorWord_lt c
  rw [opcodeField_eq_iff, unusedBitsZero, decide_field_eq_zero_iff, rdOperand_eq_iff, rs1Operand_eq_iff,
    ← BitVec.toNat_inj, registerWord_toNat]
  omega

theorem fields_rrr_iff {w : Word24} {c : OpCode} {d a b : RegIndex} :
    (opcodeField w = c ∧ unusedBitsZero .rrr w = true ∧
        rdOperand w = regOf d ∧ rs1Operand w = regOf a ∧ rs2Operand w = regOf b)
      ↔ w = selectorWord c ||| d.setWidth 24 <<< 8 ||| a.setWidth 24 <<< 12 ||| b.setWidth 24 <<< 16 := by
  have hc := selectorWord_lt c
  have hda := registerWord_toNat c d a
  rw [opcodeField_eq_iff, unusedBitsZero, decide_field_eq_zero_iff, rdOperand_eq_iff, rs1Operand_eq_iff, rs2Operand_eq_iff,
    ← BitVec.toNat_inj, toNat_putAbove (by omega) b (by omega), hda]
  omega

theorem fields_i_iff {w : Word24} {c : OpCode} {d a : RegIndex} {k : Byte} :
    (opcodeField w = c ∧ unusedBitsZero .i w = true ∧
        rdOperand w = regOf d ∧ rs1Operand w = regOf a ∧ imm8Operand w = .imm8 k)
      ↔ w = selectorWord c ||| d.setWidth 24 <<< 8 ||| a.setWidth 24 <<< 12 ||| k.setWidth 24 <<< 16 := by
  have hc := selectorWord_lt c
  have hda := registerWord_toNat c d a
  rw [opcodeField_eq_iff, unusedBitsZero, rdOperand_eq_iff, rs1Operand_eq_iff, imm8Operand_eq_iff,
    ← BitVec.toNat_inj, toNat_putAbove (by omega) k (by omega), hda, eq_self, true_and]
  omega

theorem fields_j_iff {w : Word24} {c : OpCode} {t : BitVec 12} :
    (opcodeField w = c ∧ unusedBitsZero .j w = true ∧ imm12Operand w = targetOf t)
      ↔ w = selectorWord c ||| t.setWidth 24 <<< 12 := by
  have hc := selectorWord_lt c
  rw [opcodeField_eq_iff, unusedBitsZero, decide_field_eq_zero_iff, imm12Operand_eq_iff,
    ← BitVec.toNat_inj, toNat_putAbove (by omega) t (by omega)]
  omega

/-! ## Words that carry an instruction -/

/-- The word has the selector, the live fields of the instruction, and zero in every unused bit (R51, R53). -/
def Carries (c : OpCode) (i : Instr) (w : Word24) : Prop :=
  opcodeField w = c ∧ unusedBitsZero i.mnemonic.format w = true ∧ instrOfFields i.mnemonic w = i

@[simp] theorem mnemonic_instrOfFields (m : Mnemonic) (w : Word24) : (instrOfFields m w).mnemonic = m := by
  cases m <;> rfl

/-- With an injective map, the decoder answers an instruction exactly on the words that carry it. -/
theorem decodeWith_eq_instr_iff {om : OpMap} (hom : om.Injective) {w : Word24} {i : Instr} :
    decodeWith om w = .instr i ↔ Carries (om.code i.mnemonic) i w := by
  constructor
  · intro h
    unfold decodeWith at h
    split at h
    · cases h
    next m hm =>
      split at h
      next hunused =>
        cases h
        rw [Carries, mnemonic_instrOfFields]
        exact ⟨(OpMap.code_of_inverse hm).symm, hunused, rfl⟩
      · cases h
  · rintro ⟨hc, hunused, hi⟩
    simp only [decodeWith, hc, OpMap.inverse_code hom, hunused, hi, if_true]

/-- The encoder gives a well-formed instruction the one word that carries it. -/
theorem encodeWith_wellFormed {i : Instr} (hw : i.wellFormed = true) (om : OpMap) :
    ∃ v, encodeWith om i = .ok v ∧ ∀ w, Carries (om.code i.mnemonic) i w ↔ w = v := by
  cases i with
  | halt | nop =>
    refine ⟨_, encodeBlock_n om rfl 0 0 0 0 0, fun w => ?_⟩
    simp only [Carries, instrOfFields, Instr.mnemonic, and_true]
    exact fields_n_iff
  | mv | not =>
    obtain ⟨d, a, rfl, rfl⟩ := wellFormed_rr hw
    refine ⟨_, encodeBlock_rr om rfl d a 0 0 0, fun w => ?_⟩
    simp only [Carries, instrOfFields, Instr.mnemonic, Instr.mv.injEq, Instr.not.injEq]
    exact fields_rr_iff
  | add | sub | and | or | xor =>
    obtain ⟨d, a, b, rfl, rfl, rfl⟩ := wellFormed_rrr hw
    refine ⟨_, encodeBlock_rrr om rfl d a b 0 0, fun w => ?_⟩
    simp only [Carries, instrOfFields, Instr.mnemonic, Instr.add.injEq, Instr.sub.injEq, Instr.and.injEq, Instr.or.injEq,
      Instr.xor.injEq]
    exact fields_rrr_iff
  | addi | andi | ori | xori =>
    obtain ⟨d, a, k, rfl, rfl, rfl⟩ := wellFormed_i hw
    refine ⟨_, encodeBlock_i om rfl d a 0 k 0, fun w => ?_⟩
    simp only [Carries, instrOfFields, Instr.mnemonic, Instr.addi.injEq, Instr.andi.injEq, Instr.ori.injEq,
      Instr.xori.injEq]
    exact fields_i_iff
  | jmp | bz | bnz =>
    obtain ⟨t, rfl⟩ := wellFormed_j hw
    refine ⟨_, encodeBlock_j om rfl 0 0 0 0 t, fun w => ?_⟩
    simp only [Carries, instrOfFields, Instr.mnemonic, Instr.jmp.injEq, Instr.bz.injEq, Instr.bnz.injEq]
    exact fields_j_iff

theorem inRange_regOf (r : RegIndex) : (regOf r).inRange = true := by
  have := regIndex_toNat_lt r
  simp only [regOf, Operand.inRange, decide_eq_true_eq]
  omega

theorem inRange_targetOf (t : BitVec 12) : (targetOf t).inRange = true := by
  have := target_toNat_lt t
  simp only [targetOf, Operand.inRange, decide_eq_true_eq]
  omega

/-- What the fields of a word make is well-formed, because each field is as wide as its operand's range. -/
theorem wellFormed_instrOfFields (m : Mnemonic) (w : Word24) : (instrOfFields m w).wellFormed = true := by
  have hshape : (instrOfFields m w).wellShaped = true := by cases m <;> rfl
  have hrd : (rdOperand w).inRange = true := inRange_regOf _
  have hrs1 : (rs1Operand w).inRange = true := inRange_regOf _
  have hrs2 : (rs2Operand w).inRange = true := inRange_regOf _
  have himm8 : (imm8Operand w).inRange = true := rfl
  have himm12 : (imm12Operand w).inRange = true := inRange_targetOf _
  rw [Instr.wellFormed, hshape, Bool.true_and]
  cases m <;> simp [instrOfFields, Instr.operands, hrd, hrs1, hrs2, himm8, himm12]

/-- Settles O2: the encoder's word is the one that carries the instruction, and the decoder answers an instruction exactly
where a word carries it. -/
theorem decodeAndEncodeAreInverse : Obligations.DecodeAndEncodeAreInverse := by
  unfold Obligations.DecodeAndEncodeAreInverse
  intro om hom
  have hwf : ∀ w i, decodeWith om w = .instr i → i.wellFormed = true := by
    intro w i h
    obtain ⟨-, -, hi⟩ := (decodeWith_eq_instr_iff hom).mp h
    exact hi ▸ wellFormed_instrOfFields _ _
  have hencode : ∀ w i, decodeWith om w = .instr i → encodeWith om i = .ok w := by
    intro w i h
    obtain ⟨v, hv, hcarries⟩ := encodeWith_wellFormed (hwf w i h) om
    rw [hv, (hcarries w).mp ((decodeWith_eq_instr_iff hom).mp h)]
  refine ⟨fun i hi => ?_, hencode, fun w w' i h h' => ?_, hwf⟩
  · obtain ⟨v, hv, hcarries⟩ := encodeWith_wellFormed hi om
    exact ⟨v, hv, (decodeWith_eq_instr_iff hom).mpr ((hcarries v).mpr rfl)⟩
  · exact Except.ok.inj ((hencode w i h).symm.trans (hencode w' i h'))

end Sys2Proof
end

section
/-! PROOFS. What the encoder refuses by the kinds of the slots, and whole programs (30_encoding.md rules R56, R57). -/

namespace Sys2Proof

/-! ## Slots of the wrong kind -/

theorem encodeRR_shape {rd rs1 : Operand} (h : (rd.isReg && rs1.isReg) = false) (om : OpMap) (m : Mnemonic) :
    encodeRR om m rd rs1 = .error .invalidOperand := by
  unfold encodeRR
  split
  · cases h
  · rfl

theorem encodeRRR_shape {rd rs1 rs2 : Operand} (h : (rd.isReg && rs1.isReg && rs2.isReg) = false) (om : OpMap)
    (m : Mnemonic) : encodeRRR om m rd rs1 rs2 = .error .invalidOperand := by
  unfold encodeRRR
  split
  · cases h
  · rfl

theorem encodeI_shape {rd rs1 imm : Operand} (h : (rd.isReg && rs1.isReg && imm.isImm8) = false) (om : OpMap)
    (m : Mnemonic) : encodeI om m rd rs1 imm = .error .invalidOperand := by
  unfold encodeI
  split
  · cases h
  · rfl

theorem encodeJ_shape {imm : Operand} (h : imm.isImm12 = false) (om : OpMap) (m : Mnemonic) :
    encodeJ om m imm = .error .invalidOperand := by
  unfold encodeJ
  split
  · cases h
  · rfl

/-- Settles O6: each format's encoder gives a word on slots of its own kinds only. -/
theorem encoderRefusesWrongOperandKinds : Obligations.EncoderRefusesWrongOperandKinds := by
  unfold Obligations.EncoderRefusesWrongOperandKinds
  intro om i h
  cases i with
  | halt | nop => cases h
  | mv | not => exact encodeRR_shape h om _
  | add | sub | and | or | xor => exact encodeRRR_shape h om _
  | addi | andi | ori | xori => exact encodeI_shape h om _
  | jmp | bz | bnz => exact encodeJ_shape h om _

/-! ## Programs -/

/-- A program encodes to the words of its instructions, one for one. -/
theorem forall₂_of_encodeProgramWith {om : OpMap} {p : List Instr} {ws : List Word24}
    (h : encodeProgramWith om p = .ok ws) : List.Forall₂ (fun i w => encodeWith om i = .ok w) p ws := by
  induction p generalizing ws with
  | nil => cases h; exact .nil
  | cons i p ih =>
    unfold encodeProgramWith at h
    split at h
    · cases h
    next w hi =>
      split at h
      · cases h
      next hp => cases h; exact .cons hi (ih hp)

/-- The error of a program is that of an instruction after instructions that all encode. -/
theorem encodeProgramWith_error {om : OpMap} {p : List Instr} {e : EncodeError}
    (h : encodeProgramWith om p = .error e) :
    ∃ before i after, p = before ++ i :: after ∧ encodeWith om i = .error e ∧
      ∀ i' ∈ before, ∃ w, encodeWith om i' = .ok w := by
  induction p with
  | nil => cases h
  | cons i p ih =>
    unfold encodeProgramWith at h
    split at h
    next hi => cases h; exact ⟨[], i, p, rfl, hi, by simp⟩
    next w hi =>
      split at h
      next hp =>
        cases h
        obtain ⟨before, j, after, rfl, hj, hbefore⟩ := ih hp
        exact ⟨i :: before, j, after, rfl, hj, List.forall_mem_cons.mpr ⟨⟨w, hi⟩, hbefore⟩⟩
      · cases h

end Sys2Proof

namespace Sys2Proof.Machine

/-- A booted program is the instruction memory, and nothing is beyond its end (20_memory.md rules R30, R31). -/
theorem bootProgram_reads {ws : List Word24} (h : ws.length ≤ Config.maxProgLen) :
    ∃ s, bootProgram ws = .ok s ∧ s.progLen = ws.length ∧ ∀ a, imemRead s a = ws[a]? := by
  refine ⟨_, if_pos h, rfl, fun a => ?_⟩
  have hread : Memory.read (Memory.ofWords 0 ws) a = (ws[a]?).getD unlistedWord := by
    simpa using Memory.read_ofWords ws 0 a
  by_cases ha : a < ws.length
  · simp [imemRead, hread, ha]
  · simp [imemRead, ha]

/-- Settles O8: words and instructions correspond one for one, booted words read back, and the first instruction that does
not encode stands behind ones that do. -/
theorem encodedProgramKeepsOrderAndAddresses : Obligations.EncodedProgramKeepsOrderAndAddresses := by
  unfold Obligations.EncodedProgramKeepsOrderAndAddresses
  intro om p
  constructor
  · intro ws h
    obtain ⟨hlen, hget⟩ := List.forall₂_iff_get.mp (forall₂_of_encodeProgramWith h)
    refine ⟨hlen.symm, fun k i hk => ?_, fun hp => ?_⟩
    · obtain ⟨hkp, rfl⟩ := List.getElem?_eq_some_iff.mp hk
      exact ⟨ws[k], List.getElem?_eq_getElem (hlen ▸ hkp), hget k hkp (hlen ▸ hkp)⟩
    · rw [hlen] at hp ⊢
      exact bootProgram_reads hp
  · intro e h
    obtain ⟨before, i, after, rfl, hi, hbefore⟩ := encodeProgramWith_error h
    refine ⟨before.length, i, by simp, hi, fun j i' hj hji => hbefore i' ?_⟩
    rw [List.getElem?_append_left hj] at hji
    exact List.mem_of_getElem? hji

end Sys2Proof.Machine
end

section
/-! PROOFS. Lines that hold no item (30_encoding.md rule R71). -/

namespace Sys2Proof.Machine

theorem trim_blanks {blanks : List Char} (h : blanks.all isBlank = true) : trim blanks = [] := by
  rw [trim, List.dropWhile_eq_nil_iff.mpr (List.all_eq_true.mp h)]
  rfl

/-- No blank starts a comment, so the comment is cut behind the blanks. -/
theorem stripComment_blanks_append {blanks : List Char} (h : blanks.all isBlank = true) (tail : List Char) :
    stripComment (blanks ++ tail) = blanks ++ stripComment tail := by
  refine List.takeWhile_append_of_pos fun c hc => ?_
  have hblank : isBlank c = true := List.all_eq_true.mp h c hc
  rw [bne_iff_ne]
  rintro rfl
  cases hblank

theorem parseLine_of_trim_eq_nil {line : List Char} (h : trim (stripComment line) = []) : parseLine line = .ok none := by
  simp [parseLine, h]

/-- A line that begins with blanks and has nothing else before its comment yields nothing. -/
theorem parseLine_blanks_append {blanks tail : List Char} (h : blanks.all isBlank = true) (ht : stripComment tail = []) :
    parseLine (blanks ++ tail) = .ok none := by
  refine parseLine_of_trim_eq_nil ?_
  rw [stripComment_blanks_append h, ht, List.append_nil, trim_blanks h]

/-- A line that yields nothing only counts as a line. -/
theorem parseLinesFrom_skip {line : List Char} (h : parseLine line = .ok none) (n : Nat) (lines : List (List Char)) :
    parseLinesFrom n (line :: lines) = parseLinesFrom (n + 1) lines := by
  simp only [parseLinesFrom, h]
  cases parseLinesFrom (n + 1) lines <;> rfl

/-- Settles O53: what is left of such a line before its comment is blank, and a line that yields nothing adds no item. -/
theorem blankAndCommentLinesOccupyNoAddress : Obligations.BlankAndCommentLinesOccupyNoAddress := by
  unfold Obligations.BlankAndCommentLinesOccupyNoAddress
  refine ⟨fun blanks rest h => ⟨?_, parseLine_blanks_append h rfl⟩, fun n line lines h => parseLinesFrom_skip h n lines⟩
  rw [← List.append_nil blanks]
  exact parseLine_blanks_append h rfl

end Sys2Proof.Machine
end

section
/-! PROOFS. Control and meta instructions: a commit without a register write (41_control_meta.md rule R111). -/

namespace Sys2Proof.Machine

/-- Below the top address, a sequential commit without a register write leaves its flags and the next `pc`, and nothing
else. -/
theorem commit_sequential_leavesControl (flags : Flags) {s : State} (hpc : s.pc ≠ 0xFFFF) :
    LeavesControl s (commit ⟨none, flags, .sequential⟩ s) flags (s.pc.toNat + 1) s.status := by
  obtain ⟨p, hcommit, hp⟩ := commit_sequential (e := ⟨none, flags, .sequential⟩) rfl hpc
  have hregs := commit_control_leaves flags .sequential s
  rw [hcommit] at hregs ⊢
  exact ⟨hregs, by simp, hp, by simp, imemRead_congr (by simp) (by simp)⟩

/-- At the top address, every sequential commit raises `PcOverflow` (40_execution_cycle.md rule R100). -/
theorem commit_top_faultsWith {e : Effect} (he : e.next = .sequential) {s : State} (hpc : s.pc = 0xFFFF) :
    FaultsWith .pcOverflow s (.next (commit e s)) :=
  ⟨s.pc, congrArg Host.Outcome.next (commit_top he hpc)⟩

/-- NOP commits cleared flags and the next address (41_control_meta.md rule R111). -/
theorem exec_nop (s : State) : exec .nop s = .next (commit ⟨none, clearedFlags, .sequential⟩ s) := rfl

/-- Settles O27: NOP is a sequential commit of cleared flags without a register write. -/
theorem nopResetsTheFlagsAndGoesOn : Obligations.NopResetsTheFlagsAndGoesOn := by
  unfold Obligations.NopResetsTheFlagsAndGoesOn
  refine ⟨encodeBlock_n OpMap.default (m := .nop) rfl 0 0 0 0 0, by decide, fun s hpc => ?_, fun s hpc => ?_⟩
  · exact ⟨_, exec_nop s, commit_sequential_leavesControl clearedFlags hpc⟩
  · rw [exec_nop]
    exact commit_top_faultsWith rfl hpc

end Sys2Proof.Machine
end

section
/-! PROOFS. An assembly line that holds an instruction (30_encoding.md rules R70 to R76, R84): a mnemonic, a blank, and the
operands. -/

namespace Sys2Proof.Machine

/-! ## Words -/

/-- The characters that have a meaning between the words of a line: blanks, and the marks of a comment, an operand's end and
a label (R71, R72, R76, R84). -/
def isSeparator (c : Char) : Bool :=
  isBlank c || c == ';' || c == ',' || c == ':'

/-- A mnemonic or an operand as it stands in a line: one or more characters, no separator among them. -/
def isWord (text : List Char) : Bool :=
  !text.isEmpty && text.all (fun c => !isSeparator c)

theorem isWord_mnemonicText (m : Mnemonic) : isWord (mnemonicText m) = true := by cases m <;> rfl

theorem isWord_regText (i : RegIndex) : isWord (regText i) = true := by
  revert i
  decide

theorem ne_nil_of_isWord {text : List Char} (h : isWord text = true) : text ≠ [] := by
  rintro rfl
  cases h

theorem not_mem_word {text : List Char} (h : isWord text = true) {sep : Char} (hsep : isSeparator sep = true) :
    sep ∉ text := by
  simp only [isWord, Bool.and_eq_true, List.all_eq_true] at h
  exact fun hmem => absurd (h.2 sep hmem) (by simp [hsep])

theorem not_blank_of_mem_word {text : List Char} (h : isWord text = true) {c : Char} (hc : c ∈ text) :
    isBlank c = false :=
  Bool.eq_false_iff.mpr fun hb => not_mem_word h (by simp [isSeparator, hb]) hc

/-! ## The pieces of a line -/

/-- A text that begins and ends with a word has nothing to trim. -/
theorem trim_eq_self {text v w mid front : List Char} (hv : isWord v = true) (hw : isWord w = true)
    (hbegin : text = v ++ mid) (hend : text = front ++ w) : trim text = text := by
  have hhead : text.dropWhile isBlank = text := by
    rw [List.dropWhile_eq_self_iff]
    intro hl
    have hmem : text[0] ∈ v := by
      simp only [hbegin, List.getElem_append_left (List.length_pos_of_ne_nil (ne_nil_of_isWord hv)), List.getElem_mem]
    simp [not_blank_of_mem_word hv hmem]
  have hlast : text.rdropWhile isBlank = text := by
    rw [List.rdropWhile_eq_self_iff]
    intro hl
    have hmem : text.getLast hl ∈ w := by
      simp only [hend, List.getLast_append_of_ne_nil _ (ne_nil_of_isWord hw), List.getLast_mem]
    simp [not_blank_of_mem_word hw hmem]
  exact (congrArg (List.rdropWhile isBlank) hhead).trans hlast

theorem trim_blank_cons {b : Char} (h : isBlank b = true) (text : List Char) : trim (b :: text) = trim text := by
  rw [trim, List.dropWhile_cons_of_pos h, trim]

/-- A word behind a blank is what trimming leaves. -/
theorem trim_blank_word {w : List Char} (h : isWord w = true) : trim (' ' :: w) = w := by
  rw [trim_blank_cons rfl, trim_eq_self h h (List.append_nil w).symm (List.nil_append w).symm]

/-- The text before the first separator is the first piece. -/
theorem splitAtChar_append {sep : Char} {piece : List Char} (h : sep ∉ piece) (rest : List Char) :
    splitAtChar sep (piece ++ sep :: rest) = piece :: splitAtChar sep rest := by
  induction piece with
  | nil => simp [splitAtChar]
  | cons c cs ih =>
    simp only [List.mem_cons, not_or] at h
    simp [splitAtChar, ih h.2, Ne.symm h.1]

theorem splitAtChar_eq_singleton {sep : Char} {text : List Char} (h : sep ∉ text) : splitAtChar sep text = [text] := by
  induction text with
  | nil => rfl
  | cons c cs ih =>
    simp only [List.mem_cons, not_or] at h
    simp [splitAtChar, ih h.2, Ne.symm h.1]

/-- A comma between two words makes them two operands. -/
theorem operandTexts_two {x y : List Char} (hx : isWord x = true) (hy : isWord y = true) :
    operandTexts (' ' :: (x ++ ',' :: ' ' :: y)) = [x, y] := by
  have no_comma : ∀ {w : List Char}, isWord w = true → ',' ∉ ' ' :: w := fun hw =>
    List.not_mem_cons_of_ne_of_not_mem (by decide) (not_mem_word hw rfl)
  have htrim : trim (' ' :: (x ++ ',' :: ' ' :: y)) = x ++ ',' :: ' ' :: y := by
    rw [trim_blank_cons rfl]
    exact trim_eq_self hx hy (front := x ++ [',', ' ']) rfl (by simp)
  have hsplit : splitAtChar ',' (' ' :: (x ++ ',' :: ' ' :: y)) = [' ' :: x, ' ' :: y] := by
    rw [← List.cons_append, splitAtChar_append (no_comma hx), splitAtChar_eq_singleton (no_comma hy)]
  rw [operandTexts, htrim, hsplit]
  simp [trim_blank_word hx, trim_blank_word hy]

/-! ## The line -/

/-- The mnemonic's own text names it. -/
theorem mnemonicOfText_mnemonicText (m : Mnemonic) : mnemonicOfText (mnemonicText m) = some m := by cases m <;> rfl

/-- A mnemonic's text up to the first blank, and the operands behind it. -/
theorem parseInstrLine_mnemonic (m : Mnemonic) (rest : List Char) :
    parseInstrLine (mnemonicText m ++ ' ' :: rest) = parseOperands m (operandTexts (' ' :: rest)) := by
  have hword : ∀ c ∈ mnemonicText m, (!isBlank c) = true := fun c hc => by
    simp [not_blank_of_mem_word (isWord_mnemonicText m) hc]
  rw [parseInstrLine, List.takeWhile_append_of_pos hword, List.dropWhile_append_of_pos hword,
    List.takeWhile_cons_of_neg (by decide), List.dropWhile_cons_of_neg (by decide), List.append_nil,
    mnemonicOfText_mnemonicText]

theorem stripComment_eq_self {line : List Char} (h : ';' ∉ line) : stripComment line = line := by
  rw [stripComment, List.takeWhile_eq_self_iff]
  exact fun c hc => bne_iff_ne.mpr (ne_of_mem_of_not_mem hc h)

/-- A line that is a mnemonic and its operands, with no comment and a word at its end, is the instruction they name. -/
theorem parseLine_mnemonic {m : Mnemonic} {rest front w : List Char} {i : Instr} (hw : isWord w = true)
    (hend : rest = front ++ w) (hcomment : ';' ∉ rest) (hops : parseOperands m (operandTexts (' ' :: rest)) = .ok i) :
    parseLine (mnemonicText m ++ ' ' :: rest) = .ok (some (.instr i)) := by
  have hm := isWord_mnemonicText m
  have hsplit : mnemonicText m ++ ' ' :: rest = (mnemonicText m ++ ' ' :: front) ++ w := by simp [hend]
  have hmark : ';' ∉ mnemonicText m ++ ' ' :: rest := by simp [not_mem_word hm (sep := ';') rfl, hcomment]
  have htext : trim (stripComment (mnemonicText m ++ ' ' :: rest)) = mnemonicText m ++ ' ' :: rest := by
    rw [stripComment_eq_self hmark, trim_eq_self hm hw rfl hsplit]
  have hlast : (mnemonicText m ++ ' ' :: rest).getLast? ≠ some ':' := by
    rw [hsplit, List.getLast?_append_of_ne_nil _ (ne_nil_of_isWord hw)]
    exact fun h => not_mem_word hw rfl (List.mem_of_getLast? h)
  have hne : (mnemonicText m ++ ' ' :: rest).isEmpty = false := by simp
  simp [parseLine, htext, hne, -List.getLast?_append, hlast, parseInstrLine_mnemonic, hops]

/-- The text of a register names it. -/
theorem parseReg_regText (i : RegIndex) : parseReg (regText i) = .ok (regOf i) := by
  revert i
  decide

/-- The assembly line of an instruction with two registers (the table of R76). -/
theorem parseLine_rr {m : Mnemonic} {mk : Operand → Operand → Instr} (hm : parseOperands m = parseRR mk)
    (d a : RegIndex) :
    parseLine (mnemonicText m ++ ' ' :: (regText d ++ ',' :: ' ' :: regText a))
      = .ok (some (.instr (mk (regOf d) (regOf a)))) := by
  have hd := isWord_regText d
  have ha := isWord_regText a
  refine parseLine_mnemonic ha (front := regText d ++ [',', ' ']) (by simp) ?_ ?_
  · simp [not_mem_word hd (sep := ';') rfl, not_mem_word ha (sep := ';') rfl]
  · rw [operandTexts_two hd ha, hm]
    simp only [parseRR, parseReg_regText]
    rfl

end Sys2Proof.Machine
end

section
/-! PROOFS. The unary instructions MV and NOT (42_unary.md rules R115, R116): what format RR answers, and its two ALU
operations. -/

namespace Sys2Proof.Machine

/-! ## What an instruction with two registers answers -/

/-- A slot that is no register raises `InvalidOperands` (60_exceptions.md rule R154). -/
theorem runRR_wrongShape_faults (op : AluOp) {rd rs1 : Operand} (h : (rd.isReg && rs1.isReg) = false) (s : State) :
    FaultsWith .invalidOperands s (runRR op rd rs1 s) := by
  rw [runRR, operandsRR_shape h]
  exact ⟨_, rfl⟩

/-- An index above 15 in either slot raises `InvalidRegister` (60_exceptions.md rule R153). -/
theorem runRR_badRegister_faults (op : AluOp) {n m : Byte} (h : 15 < n.toNat ∨ 15 < m.toNat) (s : State) :
    FaultsWith .invalidRegister s (runRR op (.reg n) (.reg m) s) := by
  have hbad : ∃ k, operandsRR (.reg n) (.reg m) = .error (.badRegister k) := by
    rw [operandsRR_regs]
    cases hfind : [m, n].find? (fun k => decide (15 < k.toNat)) with
    | some k => exact ⟨k, rfl⟩
    | none =>
      simp only [List.find?_eq_none, List.mem_cons] at hfind
      exact absurd h (by simpa [and_comm] using hfind)
  obtain ⟨k, hk⟩ := hbad
  rw [runRR, hk]
  exact ⟨_, rfl⟩

/-- Below the top address, two registers in order leave the ALU's result and its flags. -/
theorem runRR_leaves (op : AluOp) (d a : RegIndex) {s : State} (hpc : s.pc ≠ 0xFFFF) :
    ∃ t, runRR op (regOf d) (regOf a) s = .next t ∧
      LeavesResult s t d (alu op (readReg s a) 0).r.toNat (alu op (readReg s a) 0).c :=
  ⟨_, runRR_regOf op d a s, commit_aluEffect_leaves op d (readReg s a) 0 hpc⟩

/-- At the top address, two registers in order raise `PcOverflow` (40_execution_cycle.md rule R100). -/
theorem runRR_top_faults (op : AluOp) (d a : RegIndex) {s : State} (hpc : s.pc = 0xFFFF) :
    FaultsWith .pcOverflow s (runRR op (regOf d) (regOf a) s) := by
  rw [runRR_regOf]
  exact commit_top_faultsWith rfl hpc

/-! ## MV and NOT -/

theorem exec_mv (rd rs1 : Operand) (s : State) : exec (.mv rd rs1) s = runRR .pass rd rs1 s := rfl

theorem exec_not (rd rs1 : Operand) (s : State) : exec (.not rd rs1) s = runRR .not rd rs1 s := rfl

/-- Settles O28: MV is a format RR instruction whose ALU operation passes its operand through. -/
theorem mvCopiesTheRegister : Obligations.MvCopiesTheRegister := by
  unfold Obligations.MvCopiesTheRegister
  simp only [exec_mv]
  refine ⟨fun d a => ⟨encodeBlock_rr OpMap.default (m := .mv) rfl d a 0 0 0, ?_, fun s hpc => ?_, fun s => ?_⟩,
    fun rd rs1 s h => runRR_wrongShape_faults .pass h s, fun n m s h => runRR_badRegister_faults .pass h s⟩
  · simpa [mnemonicText] using parseLine_rr (m := .mv) rfl d a
  · simpa using runRR_leaves .pass d a hpc
  · exact runRR_top_faults .pass d a

/-- Settles O29: NOT is a format RR instruction whose ALU operation complements its operand. -/
theorem notComplementsTheRegister : Obligations.NotComplementsTheRegister := by
  unfold Obligations.NotComplementsTheRegister
  simp only [exec_not]
  refine ⟨fun d a => ⟨encodeBlock_rr OpMap.default (m := .not) rfl d a 0 0 0, ?_, fun s hpc => ?_, fun s => ?_⟩,
    fun rd rs1 s h => runRR_wrongShape_faults .not h s, fun n m s h => runRR_badRegister_faults .not h s⟩
  · simpa [mnemonicText] using parseLine_rr (m := .not) rfl d a
  · simpa using runRR_leaves .not d a hpc
  · exact runRR_top_faults .not d a

end Sys2Proof.Machine
end

section
/-! PROOFS. The binary instruction ADD (43_alu_register.md rule R120): what format RRR leaves of a register result. -/

namespace Sys2Proof.Machine

/-- Below the top address, three registers in order leave the ALU's result and its flags. -/
theorem runRRR_leaves (op : AluOp) (d a b : RegIndex) {s : State} (hpc : s.pc ≠ 0xFFFF) :
    ∃ t, runRRR op (regOf d) (regOf a) (regOf b) s = .next t ∧
      LeavesResult s t d (alu op (readReg s a) (readReg s b)).r.toNat (alu op (readReg s a) (readReg s b)).c :=
  ⟨_, runRRR_regOf op d a b s, commit_aluEffect_leaves op d (readReg s a) (readReg s b) hpc⟩

theorem exec_add (rd rs1 rs2 : Operand) (s : State) : exec (.add rd rs1 rs2) s = runRRR .add rd rs1 rs2 s := rfl

/-- Settles O30: ADD is a format RRR instruction whose ALU operation adds modulo 256, with the carry in `V`. -/
theorem addLeavesTheSumModulo256 : Obligations.AddLeavesTheSumModulo256 := by
  unfold Obligations.AddLeavesTheSumModulo256
  intro d a b
  refine ⟨encodeBlock_rrr OpMap.default (m := .add) rfl d a b 0 0, fun s hpc => ?_⟩
  rw [exec_add, ← alu_add_toNat, ← alu_add_carry]
  exact runRRR_leaves .add d a b hpc

end Sys2Proof.Machine
end

section
/-! PROOFS. The immediate instruction ADDI (44_alu_immediate.md rules R130, R134): what format I leaves of a register
result. -/

namespace Sys2Proof.Machine

/-- Below the top address, two registers in order and an 8-bit immediate leave the ALU's result and its flags. -/
theorem runI_leaves (op : AluOp) (d a : RegIndex) (k : Byte) {s : State} (hpc : s.pc ≠ 0xFFFF) :
    ∃ t, runI op (regOf d) (regOf a) (.imm8 k) s = .next t ∧
      LeavesResult s t d (alu op (readReg s a) k).r.toNat (alu op (readReg s a) k).c :=
  ⟨_, runI_regOf op d a k s, commit_aluEffect_leaves op d (readReg s a) k hpc⟩

theorem exec_addi (rd rs1 imm : Operand) (s : State) : exec (.addi rd rs1 imm) s = runI .add rd rs1 imm s := rfl

/-- Settles O35: ADDI is a format I instruction whose ALU operation adds modulo 256, with the carry in `V`. -/
theorem addiLeavesTheSumModulo256 : Obligations.AddiLeavesTheSumModulo256 := by
  unfold Obligations.AddiLeavesTheSumModulo256
  intro d a k
  refine ⟨encodeBlock_i OpMap.default (m := .addi) rfl d a 0 k 0, fun s hpc => ?_⟩
  rw [exec_addi, ← alu_add_toNat, ← alu_add_carry]
  exact runI_leaves .add d a k hpc

end Sys2Proof.Machine
end

section
/-! PROOFS. The control transfers JMP, BZ, BNZ (45_control_transfer.md rules R140 to R143): what format J answers when the
transfer is taken and when it is not, the fetch at a target out of bounds, and the jump to its own address. -/

namespace Sys2Proof.Machine

/-! ## The step and the runner -/

/-- A fetch at or beyond `PROG_LEN` gives no word (20_memory.md rules R31, R35). -/
theorem fetch_eq_none {s : State} (h : s.progLen ≤ s.pc.toNat) : fetch s = none :=
  if_neg (Nat.not_lt.mpr h)

/-- What a fetch gives depends on the address and on what the instruction memory reads as. -/
theorem fetch_congr {s t : State} (hpc : t.pc = s.pc) (hm : ∀ a, imemRead t a = imemRead s a) : fetch t = fetch s := by
  rw [fetch, hm, hpc, fetch]

/-- A running core steps on what its fetch gave (40_execution_cycle.md rule R90). -/
theorem stepWith_running (om : OpMap) {s : State} (h : s.status = .running) :
    stepWith om s = stepOnFetch om (fetch s) s := by
  rw [stepWith, h]

/-- A running core at or beyond `PROG_LEN` raises `PcOutOfBounds` (60_exceptions.md rule R156). -/
theorem stepWith_outOfBounds (om : OpMap) {s : State} (hrun : s.status = .running) (hpc : s.progLen ≤ s.pc.toNat) :
    stepWith om s = .next (raise .pcOutOfBounds s.pc s) := by
  rw [stepWith_running om hrun, fetch_eq_none hpc, stepOnFetch]

/-- A running core executes the instruction whose word it fetches. -/
theorem stepWith_fetched {om : OpMap} {s : State} {w : Word24} {i : Instr} (hrun : s.status = .running)
    (hfetch : fetch s = some w) (hdec : decodeWith om w = .instr i) : stepWith om s = exec i s := by
  simp only [stepWith_running om hrun, hfetch, stepOnFetch, hdec]

/-- With no budget left, a core that still runs is out of fuel (40_execution_cycle.md rule R92). -/
theorem runWith_zero_running (om : OpMap) {s : State} (h : s.status = .running) :
    runWith om 0 s = .next (.outOfFuel s) :=
  if_pos h

/-- A running core's run goes on from the state its step answers. -/
theorem runWith_succ_running {om : OpMap} {s t : State} (n : Nat) (h : s.status = .running)
    (hstep : stepWith om s = .next t) : runWith om (n + 1) s = runWith om n t := by
  rw [runWith, if_pos h, hstep]

/-- Running states that every step leads back among never end a run, whatever the budget. -/
theorem runWith_outOfFuel_of_invariant {om : OpMap} {I : State → Prop} (hrun : ∀ s, I s → s.status = .running)
    (hstep : ∀ s, I s → ∃ t, stepWith om s = .next t ∧ I t) (n : Nat) {s : State} (hs : I s) :
    ∃ t, runWith om n s = .next (.outOfFuel t) ∧ I t := by
  induction n generalizing s with
  | zero => exact ⟨s, runWith_zero_running om (hrun s hs), hs⟩
  | succ n ih =>
    obtain ⟨t, hst, ht⟩ := hstep s hs
    rw [runWith_succ_running n (hrun s hs) hst]
    exact ih ht

/-! ## What an instruction with a target answers -/

/-- A commit with a target and no register write leaves its flags and the target, and nothing else. -/
theorem commit_target_leavesControl (flags : Flags) (t : Addr) (s : State) :
    LeavesControl s (commit ⟨none, flags, .target t⟩ s) flags t.toNat s.status := by
  have hregs := commit_control_leaves flags (.target t) s
  rw [commit_target rfl] at hregs ⊢
  exact ⟨hregs, by simp, rfl, by simp, imemRead_congr (by simp) (by simp)⟩

/-- A target is zero-extended into the program counter (45_control_transfer.md rule R140). -/
theorem target_toNat (k : BitVec 12) : (k.setWidth 16).toNat = k.toNat :=
  BitVec.toNat_setWidth_of_le (by omega)

/-- A taken transfer goes to its target, checked at the next fetch only (45_control_transfer.md rule R140). -/
theorem runJ_taken (k : BitVec 12) (flags : Flags) (s : State) :
    ∃ t, runJ (targetOf k) flags true s = .next t ∧ LeavesControl s t flags k.toNat s.status ∧
      (s.status = .running → s.progLen ≤ k.toNat →
        step t = .next { t with status := .faulted .pcOutOfBounds t.pc }) := by
  have hleaves := commit_target_leavesControl flags (k.setWidth 16) s
  rw [target_toNat] at hleaves
  refine ⟨_, runJ_targetOf k flags true s, hleaves, fun hrun hlen => ?_⟩
  exact stepWith_outOfBounds OpMap.default (hleaves.status.trans hrun)
    ((commit_progLen _ s).trans_le (hlen.trans_eq hleaves.pc.symm))

/-- Below the top address, a transfer that is not taken goes on to the next address. -/
theorem runJ_notTaken (k : BitVec 12) (flags : Flags) {s : State} (hpc : s.pc ≠ 0xFFFF) :
    ∃ t, runJ (targetOf k) flags false s = .next t ∧ LeavesControl s t flags (s.pc.toNat + 1) s.status :=
  ⟨_, runJ_targetOf k flags false s, commit_sequential_leavesControl flags hpc⟩

/-- At the top address, a transfer that is not taken raises `PcOverflow` (40_execution_cycle.md rule R100). -/
theorem runJ_notTaken_top_faults (k : BitVec 12) (flags : Flags) {s : State} (hpc : s.pc = 0xFFFF) :
    FaultsWith .pcOverflow s (runJ (targetOf k) flags false s) := by
  rw [runJ_targetOf]
  exact commit_top_faultsWith rfl hpc

/-! ## JMP -/

theorem exec_jmp (imm : Operand) (s : State) : exec (.jmp imm) s = runJ imm clearedFlags true s := rfl

/-- A running core about to execute a jump to the address it stands at. -/
structure AtSelfJump (k : BitVec 12) (w : Word24) (s : State) : Prop where
  running : s.status = .running
  pc : s.pc.toNat = k.toNat
  word : fetch s = some w

/-- A jump to its own address leads back to itself. -/
theorem stepWith_atSelfJump {om : OpMap} {k : BitVec 12} {w : Word24} (hdec : decodeWith om w = .instr (.jmp (targetOf k)))
    {s : State} (h : AtSelfJump k w s) : ∃ t, stepWith om s = .next t ∧ AtSelfJump k w t := by
  obtain ⟨t, ht, hleaves, -⟩ := runJ_taken k clearedFlags s
  have hpc : t.pc = s.pc := BitVec.eq_of_toNat_eq (hleaves.pc.trans h.pc.symm)
  refine ⟨t, (stepWith_fetched h.running h.word hdec).trans ht, hleaves.status.trans h.running, hleaves.pc, ?_⟩
  rw [fetch_congr hpc hleaves.instructionMemory, h.word]

/-- Settles O39: JMP is a format J instruction that is always taken, and a jump to its own address keeps the core running
where it stands. -/
theorem jmpGoesToTheAbsoluteTarget : Obligations.JmpGoesToTheAbsoluteTarget := by
  unfold Obligations.JmpGoesToTheAbsoluteTarget
  intro k
  refine ⟨encodeBlock_j OpMap.default (m := .jmp) rfl 0 0 0 0 k, fun s => ?_, fun s w hrun hpc hfetch hdec n => ?_⟩
  · rw [exec_jmp]
    exact runJ_taken k clearedFlags s
  · obtain ⟨t, hn, ht⟩ := runWith_outOfFuel_of_invariant (fun _ h => h.running) (fun _ => stepWith_atSelfJump hdec) n
      (⟨hrun, hpc, hfetch⟩ : AtSelfJump k w s)
    exact ⟨t, hn, BitVec.eq_of_toNat_eq (ht.pc.trans hpc.symm), ht.running⟩

/-! ## BZ and BNZ -/

/-- BZ is taken when `Z = 1` and keeps the flags (45_control_transfer.md rule R142). -/
theorem exec_bz (imm : Operand) {s : State} {z : Bool} (h : s.flags.zero = z) :
    exec (.bz imm) s = runJ imm s.flags z s := h ▸ rfl

/-- BNZ is taken when `Z = 0` and keeps the flags (45_control_transfer.md rule R143). -/
theorem exec_bnz (imm : Operand) {s : State} {z : Bool} (h : s.flags.zero = z) :
    exec (.bnz imm) s = runJ imm s.flags (!z) s := h ▸ rfl

/-- Settles O40: BZ is a format J instruction taken when `Z = 1`. -/
theorem bzBranchesWhenZeroIsSet : Obligations.BzBranchesWhenZeroIsSet := by
  unfold Obligations.BzBranchesWhenZeroIsSet
  intro k
  refine ⟨encodeBlock_j OpMap.default (m := .bz) rfl 0 0 0 0 k, fun s hz => ?_, fun s hz hpc => ?_, fun s hz hpc => ?_,
    rfl⟩ <;> rw [exec_bz _ hz]
  · exact runJ_taken k s.flags s
  · exact runJ_notTaken k s.flags hpc
  · exact runJ_notTaken_top_faults k s.flags hpc

/-- Settles O41: BNZ is a format J instruction taken when `Z = 0`. -/
theorem bnzBranchesWhenZeroIsClear : Obligations.BnzBranchesWhenZeroIsClear := by
  unfold Obligations.BnzBranchesWhenZeroIsClear
  intro k
  refine ⟨encodeBlock_j OpMap.default (m := .bnz) rfl 0 0 0 0 k, fun s hz => ?_, fun s hz hpc => ?_, fun s hz hpc => ?_,
    rfl⟩ <;> rw [exec_bnz _ hz]
  · exact runJ_taken k s.flags s
  · exact runJ_notTaken k s.flags hpc
  · exact runJ_notTaken_top_faults k s.flags hpc

end Sys2Proof.Machine
end

section
/-! PROOFS. The faults of the fetch and of the operand checks (60_exceptions.md rules R153, R154, R156, R160): what an
instruction out of shape or with a register index above 15 raises, and that no decoded instruction is either. -/

namespace Sys2Proof

/-! ## Decoded instructions -/

/-- An instruction the decoder answers is made of the word's fields, whatever the opcode map. -/
theorem eq_instrOfFields_of_decodeWith {om : OpMap} {w : Word24} {i : Instr} (h : decodeWith om w = .instr i) :
    ∃ m, i = instrOfFields m w := by
  unfold decodeWith at h
  split at h
  · cases h
  next m _ =>
    split at h
    · cases h
      exact ⟨m, rfl⟩
    · cases h

/-- An instruction the decoder answers is well-formed, whatever the opcode map. -/
theorem wellFormed_of_decodeWith {om : OpMap} {w : Word24} {i : Instr} (h : decodeWith om w = .instr i) :
    i.wellFormed = true := by
  obtain ⟨m, rfl⟩ := eq_instrOfFields_of_decodeWith h
  exact wellFormed_instrOfFields m w

/-! ## Register slots -/

/-- A slot of the register kind holds an index. -/
theorem Operand.eq_reg {o : Operand} (h : o.isReg = true) : ∃ n, o = .reg n := by
  cases o with
  | reg n => exact ⟨n, rfl⟩
  | imm8 _ | imm12 _ | label _ => cases h

theorem Operand.mem_indices {o : Operand} {n : Byte} : n ∈ o.indices ↔ .reg n = o := by
  cases o <;> simp [Operand.indices]

/-- A register index the step checks stands in one of the instruction's slots. -/
theorem reg_mem_operands_of_mem_checkedRegisters {i : Instr} {n : Byte} (h : n ∈ i.checkedRegisters) :
    .reg n ∈ i.operands := by
  cases i with
  | halt | nop | jmp _ | bz _ | bnz _ => cases h
  | mv _ _ | not _ _ | addi _ _ _ | andi _ _ _ | ori _ _ _ | xori _ _ _ =>
    simp only [Instr.checkedRegisters, List.mem_append, Operand.mem_indices] at h
    rcases h with rfl | rfl <;> simp [Instr.operands]
  | add _ _ _ | sub _ _ _ | and _ _ _ | or _ _ _ | xor _ _ _ =>
    simp only [Instr.checkedRegisters, List.mem_append, Operand.mem_indices] at h
    rcases h with (rfl | rfl) | rfl <;> simp [Instr.operands]

/-- A well-formed instruction has no register index above 15. -/
theorem checkedRegister_le_of_wellFormed {i : Instr} {n : Byte} (hw : i.wellFormed = true)
    (hn : n ∈ i.checkedRegisters) : n.toNat ≤ 15 := by
  have hrange : i.operands.all Operand.inRange = true := (Bool.and_eq_true_iff.mp hw).2
  exact of_decide_eq_true (List.all_eq_true.mp hrange _ (reg_mem_operands_of_mem_checkedRegisters hn))

end Sys2Proof

namespace Sys2Proof.Machine

/-! ## What a refused operand check raises -/

theorem runRR_error {rd rs1 : Operand} {f : OperandFault} (h : operandsRR rd rs1 = .error f) (op : AluOp) (s : State) :
    runRR op rd rs1 s = .next (raiseOperand f s) := by
  rw [runRR, h]

theorem runRRR_error {rd rs1 rs2 : Operand} {f : OperandFault} (h : operandsRRR rd rs1 rs2 = .error f) (op : AluOp)
    (s : State) : runRRR op rd rs1 rs2 s = .next (raiseOperand f s) := by
  rw [runRRR, h]

theorem runI_error {rd rs1 imm : Operand} {f : OperandFault} (h : operandsI rd rs1 imm = .error f) (op : AluOp)
    (s : State) : runI op rd rs1 imm s = .next (raiseOperand f s) := by
  rw [runI, h]

theorem runJ_error {imm : Operand} {f : OperandFault} (h : operandsJ imm = .error f) (flags : Flags) (taken : Bool)
    (s : State) : runJ imm flags taken s = .next (raiseOperand f s) := by
  rw [runJ, h]

/-! ## Slots of the wrong kind -/

/-- An instruction with a slot of the wrong kind raises `InvalidOperands` with its own address (60_exceptions.md rules R151,
R154), because its format checks the kinds of all slots first. -/
theorem exec_of_not_wellShaped {i : Instr} (h : i.wellShaped = false) (s : State) :
    exec i s = .next (raise .invalidOperands s.pc s) := by
  cases i with
  | halt | nop => cases h
  | mv _ _ | not _ _ => exact runRR_error (operandsRR_shape h) _ s
  | add _ _ _ | sub _ _ _ | and _ _ _ | or _ _ _ | xor _ _ _ => exact runRRR_error (operandsRRR_shape h) _ s
  | addi _ _ _ | andi _ _ _ | ori _ _ _ | xori _ _ _ => exact runI_error (operandsI_shape h) _ s
  | jmp _ | bz _ | bnz _ => exact runJ_error (operandsJ_shape h) _ _ s

/-! ## Register indices above 15 -/

theorem operandsRR_badRegister {rd rs1 : Operand} {n : Byte} (hshape : (rd.isReg && rs1.isReg) = true)
    (h : (rs1.indices ++ rd.indices).find? (fun k => decide (15 < k.toNat)) = some n) :
    operandsRR rd rs1 = .error (.badRegister n) := by
  simp only [Bool.and_eq_true] at hshape
  obtain ⟨⟨d, rfl⟩, ⟨a, rfl⟩⟩ := hshape.imp Operand.eq_reg Operand.eq_reg
  simp only [Operand.indices, List.cons_append, List.nil_append] at h
  rw [operandsRR_regs, h]

theorem operandsRRR_badRegister {rd rs1 rs2 : Operand} {n : Byte}
    (hshape : (rd.isReg && rs1.isReg && rs2.isReg) = true)
    (h : (rs1.indices ++ rs2.indices ++ rd.indices).find? (fun k => decide (15 < k.toNat)) = some n) :
    operandsRRR rd rs1 rs2 = .error (.badRegister n) := by
  simp only [Bool.and_eq_true, and_assoc] at hshape
  obtain ⟨hd, ha, hb⟩ := hshape
  obtain ⟨d, rfl⟩ := Operand.eq_reg hd
  obtain ⟨a, rfl⟩ := Operand.eq_reg ha
  obtain ⟨b, rfl⟩ := Operand.eq_reg hb
  simp only [Operand.indices, List.cons_append, List.nil_append] at h
  rw [operandsRRR_regs, h]

theorem operandsI_badRegister {rd rs1 imm : Operand} {n : Byte}
    (hshape : (rd.isReg && rs1.isReg && imm.isImm8) = true)
    (h : (rs1.indices ++ rd.indices).find? (fun k => decide (15 < k.toNat)) = some n) :
    operandsI rd rs1 imm = .error (.badRegister n) := by
  simp only [Bool.and_eq_true, and_assoc] at hshape
  obtain ⟨hd, ha, hk⟩ := hshape
  obtain ⟨d, rfl⟩ := Operand.eq_reg hd
  obtain ⟨a, rfl⟩ := Operand.eq_reg ha
  obtain ⟨k, rfl⟩ := Operand.eq_imm8 hk
  simp only [Operand.indices, List.cons_append, List.nil_append] at h
  rw [operandsI_regs, h]

/-- A well-shaped instruction with a register index above 15 raises `InvalidRegister` with the first such index in the order
of the checks (60_exceptions.md rules R151, R153, R160). -/
theorem exec_of_badRegister {i : Instr} {n : Byte} (hshape : i.wellShaped = true)
    (h : i.checkedRegisters.find? (fun k => decide (15 < k.toNat)) = some n) (s : State) :
    exec i s = .next (raise .invalidRegister (n.setWidth 16) s) := by
  cases i with
  | halt | nop | jmp _ | bz _ | bnz _ => cases h
  | mv _ _ | not _ _ => exact runRR_error (operandsRR_badRegister hshape h) _ s
  | add _ _ _ | sub _ _ _ | and _ _ _ | or _ _ _ | xor _ _ _ =>
    exact runRRR_error (operandsRRR_badRegister hshape h) _ s
  | addi _ _ _ | andi _ _ _ | ori _ _ _ | xori _ _ _ => exact runI_error (operandsI_badRegister hshape h) _ s

/-! ## Well-formed instructions -/

/-- A commit halts, keeps `STATUS`, or raises `PcOverflow`. -/
theorem commit_status_cases (e : Effect) (s : State) :
    (commit e s).status = .halted ∨ (commit e s).status = s.status ∨
      (commit e s).status = .faulted .pcOverflow s.pc := by
  rcases commit_cases e s with ⟨-, h⟩ | ⟨t, -, h⟩ | ⟨-, p, h, -⟩ | ⟨-, -, h⟩ <;> rw [h]
  · exact .inl rfl
  · exact .inr (.inl (commitData_status e s))
  · exact .inr (.inl (commitData_status e s))
  · exact .inr (.inr rfl)

/-- A well-formed instruction that a running core executes raises no fault but `PcOverflow`: it commits its effect. -/
theorem eq_pcOverflow_of_exec_wellFormed {i : Instr} {s : State} {kind : Fault} (hw : i.wellFormed = true)
    (hrun : s.status = .running) (h : FaultsWith kind s (exec i s)) : kind = .pcOverflow := by
  obtain ⟨info, hfault⟩ := h
  rcases exec_cases i s with ⟨f, hill, -⟩ | ⟨e, -, hc⟩
  · simp [hw] at hill
  · have hcommit : commit e s = { s with status := .faulted kind info } :=
      Host.Outcome.next.inj (hc.symm.trans hfault)
    have hcause : kind = .pcOverflow ∧ info = s.pc := by
      simpa [hcommit, hrun] using commit_status_cases e s
    exact hcause.1

/-! ## The obligations -/

/-- Settles O17: a fetch out of bounds gives no word, whatever brought `pc` there; the jump itself completes. -/
theorem fetchBeyondTheProgramFaults : Obligations.FetchBeyondTheProgramFaults := by
  unfold Obligations.FetchBeyondTheProgramFaults
  refine ⟨fun om s => stepWith_outOfBounds om, fun om s hrun hlen => ?_, fun s w k hrun hfetch hdec hlen => ?_⟩
  · exact stepWith_outOfBounds om hrun (hlen ▸ Nat.zero_le _)
  · obtain ⟨t, ht, hleaves, hnext⟩ := runJ_taken k clearedFlags s
    have hstep : step s = .next t := (stepWith_fetched hrun hfetch hdec).trans ht
    exact ⟨t, hstep, hrun ▸ hleaves, hnext hrun hlen⟩

/-- Settles O19: the kinds of the slots are checked first, and decoded instructions are well-formed, so that a running core
commits them. -/
theorem wrongOperandKindFaults : Obligations.WrongOperandKindFaults := by
  unfold Obligations.WrongOperandKindFaults
  refine ⟨fun i s h => ⟨s.pc, exec_of_not_wellShaped h s⟩, fun om w i hdec => ?_⟩
  have hw := wellFormed_of_decodeWith hdec
  refine ⟨(Bool.and_eq_true_iff.mp hw).1, fun s hrun hfault => ?_⟩
  cases eq_pcOverflow_of_exec_wellFormed hw hrun hfault

/-- Settles O20: the checks find the first index above 15 in whatever slot it stands, and decoded instructions are
well-formed. -/
theorem registerAboveFifteenFaults : Obligations.RegisterAboveFifteenFaults := by
  unfold Obligations.RegisterAboveFifteenFaults
  refine ⟨fun i s hshape ⟨n, hmem, hn⟩ => ?_,
    fun om w i n hdec hmem => checkedRegister_le_of_wellFormed (wellFormed_of_decodeWith hdec) hmem⟩
  have hsome : (i.checkedRegisters.find? fun k => decide (15 < k.toNat)).isSome :=
    List.find?_isSome.mpr ⟨n, hmem, decide_eq_true hn⟩
  obtain ⟨k, hk⟩ := Option.isSome_iff_exists.mp hsome
  exact ⟨_, exec_of_badRegister hshape hk s⟩

end Sys2Proof.Machine
end

section
/-! PROOFS. The reset edge (70_reset_and_hazards.md rules R180 to R182): with `rst = 1` the state before decides nothing but the
program that stays loaded. -/

namespace Sys2Proof.Machine

/-- An edge with `rst = 1` resets and takes no step, whatever `STATUS` was. -/
@[simp] theorem clockEdgeWith_rst (om : OpMap) (s : State) : clockEdgeWith om true s = .next (resetCore s) := rfl

/-- Settles O23: the edge with `rst = 1` answers `resetCore s`, whose fields are the values of R22. -/
theorem resetEdgeGivesTheResetState : Obligations.ResetEdgeGivesTheResetState := by
  unfold Obligations.ResetEdgeGivesTheResetState
  exact fun om s => ⟨resetCore s, clockEdgeWith_rst om s, resetCore_pc s, readReg_resetCore s, resetCore_flags s,
    resetCore_status s⟩

end Sys2Proof.Machine
end

section
/-! PROOFS. What a step can do (40_execution_cycle.md rule R90), said once, and what every step and every run keep. -/

namespace Sys2Proof

/-- The decoder's illegal answer names the word decoded (30_encoding.md rule R62). -/
theorem eq_of_decodeWith_illegal {om : OpMap} {w v : Word24} (h : decodeWith om w = .illegal v) : v = w := by
  unfold decodeWith at h
  split at h
  · cases h; rfl
  · split at h
    · cases h
    · cases h; rfl

end Sys2Proof

namespace Sys2Proof.Machine

/-! ## The step -/

/-- A core that is not running does not change (10_state.md rule R20). -/
theorem stepWith_stopped (om : OpMap) {s : State} (h : s.status ≠ .running) : stepWith om s = .next s := by
  unfold stepWith
  split
  · contradiction
  · rfl
  · rfl

/-- A running core that fetches an illegal word raises `InvalidInstruction` (60_exceptions.md rule R155). -/
theorem stepWith_illegal {om : OpMap} {s : State} {w : Word24} (hrun : s.status = .running) (hfetch : fetch s = some w)
    (hdec : decodeWith om w = .illegal w) : stepWith om s = .next (raise .invalidInstruction s.pc s) := by
  simp only [stepWith_running om hrun, hfetch, stepOnFetch, hdec]

/-- A word is fetched from inside the program only. -/
theorem pc_lt_progLen_of_fetch {s : State} {w : Word24} (h : fetch s = some w) : s.pc.toNat < s.progLen := by
  by_contra hpc
  simp [fetch_eq_none (Nat.not_lt.mp hpc)] at h

/-- A running core commits the effect of the instruction `i` that the word `w` at its `pc` decodes to. -/
structure Executes (om : OpMap) (s : State) (w : Word24) (i : Instr) (e : Effect) : Prop where
  running : s.status = .running
  fetched : fetch s = some w
  decoded : decodeWith om w = .instr i
  effect : EffectOf i s e
  exec : exec i s = .next (commit e s)

/-- Everything a step can do: stand still, raise one of the two faults of the fetch, or commit the effect of the instruction
fetched. -/
theorem stepWith_cases (om : OpMap) (s : State) :
    (s.status ≠ .running ∧ stepWith om s = .next s) ∨
    (s.progLen ≤ s.pc.toNat ∧ stepWith om s = .next (raise .pcOutOfBounds s.pc s)) ∨
    (∃ w, fetch s = some w ∧ decodeWith om w = .illegal w ∧
      stepWith om s = .next (raise .invalidInstruction s.pc s)) ∨
    (∃ w i e, Executes om s w i e ∧ stepWith om s = .next (commit e s)) := by
  by_cases hrun : s.status = .running
  · by_cases hlen : s.progLen ≤ s.pc.toNat
    · exact .inr (.inl ⟨hlen, stepWith_outOfBounds om hrun hlen⟩)
    · have hfetch : fetch s = some (Memory.read s.imem s.pc.toNat) := if_pos (Nat.not_le.mp hlen)
      cases hdec : decodeWith om (Memory.read s.imem s.pc.toNat) with
      | illegal v =>
        cases eq_of_decodeWith_illegal hdec
        exact .inr (.inr (.inl ⟨_, hfetch, hdec, stepWith_illegal hrun hfetch hdec⟩))
      | instr i =>
        rcases exec_cases i s with ⟨f, hill, -⟩ | ⟨e, he, hexec⟩
        · simp [wellFormed_of_decodeWith hdec] at hill
        · exact .inr (.inr (.inr ⟨_, i, e, ⟨hrun, hfetch, hdec, he, hexec⟩,
            (stepWith_fetched hrun hfetch hdec).trans hexec⟩))
  · exact .inl ⟨hrun, stepWith_stopped om hrun⟩

/-- Every instruction answers a next state. -/
theorem exec_next (i : Instr) (s : State) : ∃ t, exec i s = .next t := by
  rcases exec_cases i s with ⟨f, -, h⟩ | ⟨e, -, h⟩ <;> exact ⟨_, h⟩

/-- Every step answers a next state. -/
theorem stepWith_next (om : OpMap) (s : State) : ∃ t, stepWith om s = .next t := by
  rcases stepWith_cases om s with ⟨-, h⟩ | ⟨-, h⟩ | ⟨w, -, -, h⟩ | ⟨w, i, e, -, h⟩ <;> exact ⟨_, h⟩

/-! ## Runs -/

/-- A run of a core that is not running ends at once, whatever the budget (40_execution_cycle.md rule R92). -/
theorem runWith_stopped (om : OpMap) {s : State} (h : s.status ≠ .running) (n : Nat) :
    runWith om n s = .next (.ended s) := by
  cases n <;> simp only [runWith, if_neg h]

/-- Every run answers, with a result whose state has every property that the start has and every step keeps. -/
theorem runWith_preserves {om : OpMap} {P : State → Prop} (hstep : ∀ s t, P s → stepWith om s = .next t → P t) (n : Nat)
    {s : State} (hs : P s) : ∃ r, runWith om n s = .next r ∧ P r.state := by
  induction n generalizing s with
  | zero =>
    by_cases hrun : s.status = .running
    · exact ⟨_, runWith_zero_running om hrun, hs⟩
    · exact ⟨_, runWith_stopped om hrun 0, hs⟩
  | succ n ih =>
    by_cases hrun : s.status = .running
    · obtain ⟨t, ht⟩ := stepWith_next om s
      rw [runWith_succ_running n hrun ht]
      exact ih (hstep s t hs ht)
    · exact ⟨_, runWith_stopped om hrun _, hs⟩

/-- The same of a result that is known. -/
theorem preserved_of_runWith {om : OpMap} {P : State → Prop} (hstep : ∀ s t, P s → stepWith om s = .next t → P t)
    {n : Nat} {s : State} {r : RunResult} (hs : P s) (hr : runWith om n s = .next r) : P r.state := by
  obtain ⟨r', hr', hP⟩ := runWith_preserves hstep n hs
  cases hr.symm.trans hr'
  exact hP

/-- Settles O12: `exec` raises a fault or commits, and a step and a run do nothing else with its answers. -/
theorem stepAlwaysAnswersANextState : Obligations.StepAlwaysAnswersANextState := by
  unfold Obligations.StepAlwaysAnswersANextState
  refine ⟨exec_next, stepWith_next, fun om n s => ?_⟩
  obtain ⟨r, hr, -⟩ := runWith_preserves (om := om) (P := fun _ => True) (fun _ _ _ _ => trivial) n (s := s) trivial
  exact ⟨r, hr⟩

/-- Settles O11: neither a step nor a run takes a core that is not running anywhere. -/
theorem stoppedCoreNeverChanges : Obligations.StoppedCoreNeverChanges := by
  unfold Obligations.StoppedCoreNeverChanges
  exact fun om s h => ⟨stepWith_stopped om h, runWith_stopped om h⟩

/-- Settles O9: the step of a running core on a legal word is `exec`. -/
theorem stepRunsTheDecodedInstruction : Obligations.StepRunsTheDecodedInstruction := by
  unfold Obligations.StepRunsTheDecodedInstruction
  exact fun s w i => stepWith_fetched

/-- Settles O18: the step of a running core on an illegal word raises the fault that a bare Label raises. -/
theorem illegalWordOrLabelFaults : Obligations.IllegalWordOrLabelFaults := by
  unfold Obligations.IllegalWordOrLabelFaults
  exact ⟨fun om s w => stepWith_illegal, fun n s => rfl⟩

/-! ## `STATUS` is explained by the state -/

/-- What the instruction fetched leaves in `STATUS` is explained: HALT halts where it stands, the top address faults inside
the program, and every other commit leaves the core running. -/
theorem statusExplained_commit {om : OpMap} {s : State} {w : Word24} {i : Instr} {e : Effect}
    (h : Executes om s w i e) : StatusExplained om (commit e s) := by
  rcases commit_cases e s with ⟨hstop, hc⟩ | ⟨t, -, hc⟩ | ⟨-, p, hc, -⟩ | ⟨-, htop, hc⟩
  · cases h.effect.stop.mp hstop
    have hhalt : commit e s = commit ⟨none, clearedFlags, .stop⟩ s := Host.Outcome.next.inj h.exec.symm
    rw [hhalt]
    exact ⟨rfl, w, h.fetched, h.decoded⟩
  · simp [StatusExplained, hc, h.running]
  · simp [StatusExplained, hc, h.running]
  · rw [hc]
    exact ⟨rfl, htop, pc_lt_progLen_of_fetch h.fetched⟩

/-- Every step keeps `STATUS` explained. -/
theorem statusExplained_step {om : OpMap} {s t : State} (hs : StatusExplained om s) (ht : stepWith om s = .next t) :
    StatusExplained om t := by
  rcases stepWith_cases om s with ⟨-, h⟩ | ⟨hlen, h⟩ | ⟨w, hfetch, hdec, h⟩ | ⟨w, i, e, he, h⟩ <;> cases ht.symm.trans h
  · exact hs
  · exact ⟨rfl, hlen⟩
  · exact ⟨rfl, w, hfetch, hdec⟩
  · exact statusExplained_commit he

/-- Settles O13: a step stands still, raises a fault of the fetch, or commits, and each leaves `STATUS` explained. -/
theorem stepKeepsStatusExplained : Obligations.StepKeepsStatusExplained := by
  unfold Obligations.StepKeepsStatusExplained
  exact fun om s t => statusExplained_step

/-- A run that ends leaves a core that is not running, and reaches the same end with any larger budget. -/
theorem runWith_ended {om : OpMap} {n : Nat} {s t : State} (h : runWith om n s = .next (.ended t)) :
    t.status ≠ .running ∧ ∀ m, runWith om (n + m) s = .next (.ended t) := by
  induction n generalizing s with
  | zero =>
    by_cases hrun : s.status = .running
    · cases (runWith_zero_running om hrun).symm.trans h
    · cases (runWith_stopped om hrun 0).symm.trans h
      exact ⟨hrun, fun m => runWith_stopped om hrun _⟩
  | succ n ih =>
    by_cases hrun : s.status = .running
    · obtain ⟨u, hu⟩ := stepWith_next om s
      rw [runWith_succ_running n hrun hu] at h
      refine ⟨(ih h).1, fun m => ?_⟩
      rw [Nat.add_right_comm, runWith_succ_running _ hrun hu]
      exact (ih h).2 m
    · cases (runWith_stopped om hrun _).symm.trans h
      exact ⟨hrun, fun m => runWith_stopped om hrun _⟩

/-- A run that is out of fuel leaves a running core. -/
theorem running_of_runWith_outOfFuel {om : OpMap} {n : Nat} {s t : State} (h : runWith om n s = .next (.outOfFuel t)) :
    t.status = .running := by
  induction n generalizing s with
  | zero =>
    by_cases hrun : s.status = .running
    · cases (runWith_zero_running om hrun).symm.trans h
      exact hrun
    · cases (runWith_stopped om hrun 0).symm.trans h
  | succ n ih =>
    by_cases hrun : s.status = .running
    · obtain ⟨u, hu⟩ := stepWith_next om s
      rw [runWith_succ_running n hrun hu] at h
      exact ih h
    · cases (runWith_stopped om hrun _).symm.trans h

/-- Settles O47: by induction on the budget, as a core that is not running ends a run whatever budget is left. -/
theorem moreFuelGivesTheSameEnd : Obligations.MoreFuelGivesTheSameEnd := by
  unfold Obligations.MoreFuelGivesTheSameEnd
  exact fun om n s t => ⟨runWith_ended, running_of_runWith_outOfFuel⟩

/-- Settles O48: `STATUS` is explained where a run starts, so it is where the run ends, and there it is not Running. -/
theorem endedRunsAreExplained : Obligations.EndedRunsAreExplained := by
  unfold Obligations.EndedRunsAreExplained
  intro om s t hrun ⟨n, hn⟩
  have hstart : StatusExplained om s := by simp only [StatusExplained, hrun]
  have hend : StatusExplained om t := preserved_of_runWith (fun _ _ => statusExplained_step) hstart hn
  have hstopped := (runWith_ended hn).1
  unfold State.Succeeded
  unfold StatusExplained at hend
  cases hstatus : t.status with
  | running => contradiction
  | halted =>
    rw [hstatus] at hend
    exact ⟨fun _ => hend, by simp, .inl rfl⟩
  | faulted kind info =>
    rw [hstatus] at hend
    refine ⟨by simp, ?_, .inr ⟨kind, info, rfl⟩⟩
    rintro _ _ ⟨⟩
    exact hend

/-! ## The program stays -/

/-- No step changes the instruction memory or its length (20_memory.md rule R32). -/
theorem imem_progLen_step {om : OpMap} {s t : State} (ht : stepWith om s = .next t) :
    t.imem = s.imem ∧ t.progLen = s.progLen := by
  rcases stepWith_cases om s with ⟨-, h⟩ | ⟨-, h⟩ | ⟨w, -, -, h⟩ | ⟨w, i, e, -, h⟩ <;> cases ht.symm.trans h <;> simp

/-- Settles O14: no step touches the two fields that hold the program, so no run does. -/
theorem stepKeepsTheProgram : Obligations.StepKeepsTheProgram := by
  unfold Obligations.StepKeepsTheProgram
  refine ⟨fun om s t ht => ?_, fun om n s r hr => ?_⟩
  · obtain ⟨hm, hl⟩ := imem_progLen_step ht
    refine ⟨fun hok => ?_, hl, imemRead_congr hm hl⟩
    rwa [State.memoryOk, hm, hl]
  · obtain ⟨hm, hl⟩ : r.state.imem = s.imem ∧ r.state.progLen = s.progLen :=
      preserved_of_runWith (P := fun t => t.imem = s.imem ∧ t.progLen = s.progLen)
        (fun u v ⟨hm, hl⟩ hv => ⟨(imem_progLen_step hv).1.trans hm, (imem_progLen_step hv).2.trans hl⟩) ⟨rfl, rfl⟩ hr
    exact ⟨hl, imemRead_congr hm hl⟩

/-! ## Precise faults, and the reach of a step -/

/-- A commit in a running core that leaves a fault is the fault and nothing else: every other commit halts or goes on. -/
theorem commit_precise {e : Effect} {s : State} {kind : Fault} {info : BitVec 16} (hrun : s.status = .running)
    (h : (commit e s).status = .faulted kind info) : commit e s = { s with status := .faulted kind info } := by
  rcases commit_cases e s with ⟨-, hc⟩ | ⟨t, -, hc⟩ | ⟨-, p, hc, -⟩ | ⟨-, -, hc⟩ <;> rw [hc] at h ⊢
  · cases h
  · simp [hrun] at h
  · simp [hrun] at h
  · cases h
    rfl

/-- Settles O16: a step that faults only raises the fault. -/
theorem faultsArePrecise : Obligations.FaultsArePrecise := by
  unfold Obligations.FaultsArePrecise
  intro om s t kind info hrun ht hfault
  rcases stepWith_cases om s with ⟨hstop, -⟩ | ⟨-, h⟩ | ⟨w, -, -, h⟩ | ⟨w, i, e, -, h⟩
  · contradiction
  · cases ht.symm.trans h
    cases hfault
    rfl
  · cases ht.symm.trans h
    cases hfault
    rfl
  · cases ht.symm.trans h
    exact commit_precise hrun hfault

/-- A commit keeps `pc`, moves it on by one, or takes it to the effect's target. -/
theorem commit_pc_cases (e : Effect) (s : State) :
    (commit e s).pc = s.pc ∨ (commit e s).pc.toNat = s.pc.toNat + 1 ∨ e.next = .target (commit e s).pc := by
  rcases commit_cases e s with ⟨-, hc⟩ | ⟨t, ht, hc⟩ | ⟨-, p, hc, hp⟩ | ⟨-, -, hc⟩ <;> rw [hc]
  · exact .inl (commitData_pc e s)
  · exact .inr (.inr ht)
  · exact .inr (.inl hp)
  · exact .inl rfl

/-- Settles O46: a step that neither keeps `pc` nor moves it on by one takes a target, and targets are at most 4095. -/
theorem highAddressesAreReachedByFallingThrough : Obligations.HighAddressesAreReachedByFallingThrough := by
  unfold Obligations.HighAddressesAreReachedByFallingThrough
  intro om s t ht hhigh
  rcases stepWith_cases om s with ⟨-, h⟩ | ⟨-, h⟩ | ⟨w, -, -, h⟩ | ⟨w, i, e, he, h⟩ <;> cases ht.symm.trans h
  · exact .inl rfl
  · exact .inl rfl
  · exact .inl rfl
  · rcases commit_pc_cases e s with hpc | hpc | htarget
    · exact .inl hpc
    · exact .inr hpc
    · have := he.effect.target _ htarget
      omega

end Sys2Proof.Machine
end

section
/-! PROOFS. Which instructions read which flag (10_state.md section 4): the commit overwrites both flags, only BZ and BNZ test
`Z`, and nothing tests `V`. -/

namespace Sys2Proof.Machine

/-! ## Commits from states that differ in their flags -/

/-- The data part of a commit overwrites the flags. -/
theorem commitData_withFlags (e : Effect) (s : State) (f : Flags) :
    commitData e { s with flags := f } = commitData e s := by
  unfold commitData writeReg
  split
  · rfl
  · split <;> rfl

/-- Below the top address, a commit overwrites the flags. -/
theorem commit_withFlags (e : Effect) {s : State} (hpc : s.pc ≠ 0xFFFF) (f : Flags) :
    commit e { s with flags := f } = commit e s := by
  obtain ⟨p, hp, -⟩ := seqPc_of_ne_top hpc
  simp only [commit, hp, commitData_withFlags]

/-- An effect's flags decide nothing of the data part of a commit but the flags. -/
theorem commitData_effect_withFlags (e : Effect) (f : Flags) (s : State) :
    commitData { e with flags := f } s = { commitData e s with flags := f } := by
  obtain ⟨write, flags, next⟩ := e
  cases write <;> rfl

theorem sameButOverflow_iff {s t : State} : SameButOverflow s t ↔ ∃ v, t = { s with flags := ⟨s.flags.zero, v⟩ } := by
  refine ⟨fun h => ⟨_, h⟩, ?_⟩
  rintro ⟨v, rfl⟩
  rfl

theorem SameButOverflow.status {s t : State} (h : SameButOverflow s t) : t.status = s.status := by
  obtain ⟨v, rfl⟩ := sameButOverflow_iff.mp h
  rfl

theorem SameButOverflow.fetch {s t : State} (h : SameButOverflow s t) : fetch t = fetch s := by
  obtain ⟨v, rfl⟩ := sameButOverflow_iff.mp h
  rfl

theorem SameButOverflow.zero {s t : State} (h : SameButOverflow s t) : t.flags.zero = s.flags.zero := by
  obtain ⟨v, rfl⟩ := sameButOverflow_iff.mp h
  rfl

/-- Effects that differ in the overflow flag at most, committed in states that do, leave states that do. -/
theorem sameButOverflow_commit (e : Effect) (v : Bool) {s s' : State} (h : SameButOverflow s s') :
    SameButOverflow (commit e s) (commit { e with flags := ⟨e.flags.zero, v⟩ } s') := by
  obtain ⟨v', rfl⟩ := sameButOverflow_iff.mp h
  have hdata : commitData { e with flags := ⟨e.flags.zero, v⟩ } { s with flags := ⟨s.flags.zero, v'⟩ }
      = { commitData e s with flags := ⟨(commitData e s).flags.zero, v⟩ } := by
    rw [commitData_withFlags, commitData_effect_withFlags, commitData_flags]
  apply sameButOverflow_iff.mpr
  unfold commit
  rw [hdata]
  cases e.next with
  | stop => exact ⟨v, rfl⟩
  | target t => exact ⟨v, rfl⟩
  | sequential =>
    cases seqPc s.pc with
    | some p => exact ⟨v, rfl⟩
    | none => exact ⟨v', rfl⟩

/-! ## What an instruction reads of the flags -/

/-- Operands in order give the ALU the same inputs whatever the flags are. -/
theorem runRR_any_flags (op : AluOp) {rd rs1 : Operand}
    (hw : (rd.isReg && rs1.isReg && [rd, rs1].all Operand.inRange) = true) (s : State) :
    ∃ e, ∀ f, runRR op rd rs1 { s with flags := f } = .next (commit e { s with flags := f }) := by
  obtain ⟨d, a, rfl, rfl⟩ := wellFormed_rr hw
  exact ⟨aluEffect op d (readReg s a) 0, fun f => runRR_regOf op d a _⟩

theorem runRRR_any_flags (op : AluOp) {rd rs1 rs2 : Operand}
    (hw : (rd.isReg && rs1.isReg && rs2.isReg && [rd, rs1, rs2].all Operand.inRange) = true) (s : State) :
    ∃ e, ∀ f, runRRR op rd rs1 rs2 { s with flags := f } = .next (commit e { s with flags := f }) := by
  obtain ⟨d, a, b, rfl, rfl, rfl⟩ := wellFormed_rrr hw
  exact ⟨aluEffect op d (readReg s a) (readReg s b), fun f => runRRR_regOf op d a b _⟩

theorem runI_any_flags (op : AluOp) {rd rs1 imm : Operand}
    (hw : (rd.isReg && rs1.isReg && imm.isImm8 && [rd, rs1, imm].all Operand.inRange) = true) (s : State) :
    ∃ e, ∀ f, runI op rd rs1 imm { s with flags := f } = .next (commit e { s with flags := f }) := by
  obtain ⟨d, a, k, rfl, rfl, rfl⟩ := wellFormed_i hw
  exact ⟨aluEffect op d (readReg s a) k, fun f => runI_regOf op d a k _⟩

/-- Every well-formed instruction but BZ and BNZ commits an effect that no flag decides. -/
theorem exec_any_flags {i : Instr} (hw : i.wellFormed = true) (hb : i.isBranch = false) (s : State) :
    ∃ e, ∀ f, exec i { s with flags := f } = .next (commit e { s with flags := f }) := by
  cases i with
  | halt | nop => exact ⟨_, fun f => rfl⟩
  | mv | not => exact runRR_any_flags _ hw s
  | add | sub | and | or | xor => exact runRRR_any_flags _ hw s
  | addi | andi | ori | xori => exact runI_any_flags _ hw s
  | jmp =>
    obtain ⟨k, rfl⟩ := wellFormed_j hw
    exact ⟨_, fun f => runJ_targetOf k clearedFlags true _⟩
  | bz | bnz => cases hb

/-- Settles O45: an instruction that tests no flag commits the same effect whatever the flags were, and the commit overwrites
them. -/
theorem onlyBranchesReadTheZeroFlag : Obligations.OnlyBranchesReadTheZeroFlag := by
  unfold Obligations.OnlyBranchesReadTheZeroFlag
  intro i s f hw hb hpc
  obtain ⟨e, he⟩ := exec_any_flags hw hb s
  have hs : exec i s = .next (commit e s) := he s.flags
  rw [he f, hs, commit_withFlags e hpc]

/-! ## `V` is never read -/

/-- A well-formed transfer that keeps the flags leaves states that differ in `V` at most. -/
theorem sameButOverflow_runJ (k : BitVec 12) (taken : Bool) {s s' : State} (h : SameButOverflow s s') :
    ∃ t t', runJ (targetOf k) s.flags taken s = .next t ∧ runJ (targetOf k) s'.flags taken s' = .next t' ∧
      SameButOverflow t t' := by
  refine ⟨_, _, runJ_targetOf k _ taken s, runJ_targetOf k _ taken s', ?_⟩
  rw [show s'.flags = ⟨s.flags.zero, s'.flags.overflow⟩ by rw [← h.zero]]
  exact sameButOverflow_commit ⟨none, s.flags, _⟩ _ h

/-- A well-formed instruction takes states that differ in `V` at most to states that do. -/
theorem sameButOverflow_exec {i : Instr} (hw : i.wellFormed = true) {s s' : State} (h : SameButOverflow s s') :
    ∃ t t', exec i s = .next t ∧ exec i s' = .next t' ∧ SameButOverflow t t' := by
  cases hb : i.isBranch with
  | false =>
    obtain ⟨e, he⟩ := exec_any_flags hw hb s
    obtain ⟨v, rfl⟩ := sameButOverflow_iff.mp h
    exact ⟨_, _, he s.flags, he _, sameButOverflow_commit e e.flags.overflow h⟩
  | true =>
    cases i with
    | bz =>
      obtain ⟨k, rfl⟩ := wellFormed_j hw
      rw [exec_bz _ rfl, exec_bz _ h.zero]
      exact sameButOverflow_runJ k _ h
    | bnz =>
      obtain ⟨k, rfl⟩ := wellFormed_j hw
      rw [exec_bnz _ rfl, exec_bnz _ h.zero]
      exact sameButOverflow_runJ k _ h
    | _ => cases hb

theorem sameButOverflow_raise (kind : Fault) {s s' : State} (h : SameButOverflow s s') :
    SameButOverflow (raise kind s.pc s) (raise kind s'.pc s') := by
  obtain ⟨v, rfl⟩ := sameButOverflow_iff.mp h
  rfl

/-- What is done with the word fetched takes states that differ in `V` at most to states that do. -/
theorem sameButOverflow_stepOnFetch (om : OpMap) (word : Option Word24) {s s' : State} (h : SameButOverflow s s') :
    ∃ t t', stepOnFetch om word s = .next t ∧ stepOnFetch om word s' = .next t' ∧ SameButOverflow t t' := by
  cases word with
  | none => exact ⟨_, _, rfl, rfl, sameButOverflow_raise _ h⟩
  | some w =>
    cases hdec : decodeWith om w with
    | illegal v =>
      simp only [stepOnFetch, hdec]
      exact ⟨_, _, rfl, rfl, sameButOverflow_raise _ h⟩
    | instr i =>
      simp only [stepOnFetch, hdec]
      exact sameButOverflow_exec (wellFormed_of_decodeWith hdec) h

/-- A step takes states that differ in `V` at most to states that do: `V` decides neither whether a core runs nor what it
fetches. -/
theorem sameButOverflow_step (om : OpMap) {s s' : State} (h : SameButOverflow s s') :
    ∃ t t', stepWith om s = .next t ∧ stepWith om s' = .next t' ∧ SameButOverflow t t' := by
  by_cases hrun : s.status = .running
  · rw [stepWith_running om hrun, stepWith_running om (h.status.trans hrun), h.fetch]
    exact sameButOverflow_stepOnFetch om _ h
  · exact ⟨s, s', stepWith_stopped om hrun, stepWith_stopped om (h.status ▸ hrun), h⟩

/-- Runs with equal budgets from states that differ in `V` at most report states that do. -/
theorem sameButOverflow_run (om : OpMap) (n : Nat) {s s' : State} (h : SameButOverflow s s') :
    ∃ r r', runWith om n s = .next r ∧ runWith om n s' = .next r' ∧ SameButOverflow r.state r'.state := by
  induction n generalizing s s' with
  | zero =>
    by_cases hrun : s.status = .running
    · exact ⟨_, _, runWith_zero_running om hrun, runWith_zero_running om (h.status.trans hrun), h⟩
    · exact ⟨_, _, runWith_stopped om hrun 0, runWith_stopped om (h.status ▸ hrun) 0, h⟩
  | succ n ih =>
    by_cases hrun : s.status = .running
    · obtain ⟨t, t', ht, ht', hsame⟩ := sameButOverflow_step om h
      rw [runWith_succ_running n hrun ht, runWith_succ_running n (h.status.trans hrun) ht']
      exact ih hsame
    · exact ⟨_, _, runWith_stopped om hrun _, runWith_stopped om (h.status ▸ hrun) _, h⟩

/-- Settles O44: every step keeps the relation, so every run does. -/
theorem overflowFlagIsNeverRead : Obligations.OverflowFlagIsNeverRead := by
  unfold Obligations.OverflowFlagIsNeverRead
  exact fun om s s' h => ⟨sameButOverflow_step om h, fun n => sameButOverflow_run om n h⟩

end Sys2Proof.Machine
end

section
/-! PROOFS. The frame of every instruction (10_state.md sections 3 and 4), the top address (60_exceptions.md rule R157), and
the payload and order of the operand faults (rules R151, R160). -/

namespace Sys2Proof.Machine

/-! ## The frame -/

/-- No instruction touches the two fields that hold the program. -/
theorem imem_progLen_exec {i : Instr} {s t : State} (ht : exec i s = .next t) :
    t.imem = s.imem ∧ t.progLen = s.progLen := by
  rcases exec_cases i s with ⟨f, -, hf⟩ | ⟨e, -, hc⟩
  · obtain ⟨kind, info, hraise⟩ := raiseOperand_eq f s
    cases ht.symm.trans hf
    simp [hraise]
  · cases ht.symm.trans hc
    simp

/-- A commit leaves its effect's flags or, where it faults, the flags as they were. -/
theorem commit_flags_cases (e : Effect) (s : State) : (commit e s).flags = e.flags ∨ (commit e s).flags = s.flags := by
  rcases commit_cases e s with ⟨-, hc⟩ | ⟨t, -, hc⟩ | ⟨-, p, hc, -⟩ | ⟨-, -, hc⟩ <;> simp [hc]

/-- BZ and BNZ leave the flags, whether they complete or fault. -/
theorem flags_exec_of_isBranch {i : Instr} {s t : State} (hb : i.isBranch = true) (ht : exec i s = .next t) :
    t.flags = s.flags := by
  rcases exec_cases i s with ⟨f, -, hf⟩ | ⟨e, he, hc⟩
  · obtain ⟨kind, info, hraise⟩ := raiseOperand_eq f s
    cases ht.symm.trans hf
    rw [hraise]
  · cases ht.symm.trans hc
    exact (commit_flags_cases e s).elim (·.trans (he.flags hb)) id

/-- An instruction keeps `STATUS`, is HALT and halts, or faults. -/
theorem status_exec_cases {i : Instr} {s t : State} (ht : exec i s = .next t) :
    t.status = s.status ∨ (i = .halt ∧ t.status = .halted) ∨ ∃ kind info, t.status = .faulted kind info := by
  rcases exec_cases i s with ⟨f, -, hf⟩ | ⟨e, he, hc⟩
  · obtain ⟨kind, info, hraise⟩ := raiseOperand_eq f s
    cases ht.symm.trans hf
    exact .inr (.inr ⟨kind, info, by rw [hraise]⟩)
  · cases ht.symm.trans hc
    rcases commit_cases e s with ⟨hstop, hc⟩ | ⟨t, -, hc⟩ | ⟨-, p, hc, -⟩ | ⟨-, -, hc⟩ <;> rw [hc]
    · exact .inr (.inl ⟨he.stop.mp hstop, rfl⟩)
    · exact .inl (commitData_status e s)
    · exact .inl (commitData_status e s)
    · exact .inr (.inr ⟨_, _, rfl⟩)

/-- Settles O42: an instruction raises an operand fault or commits its effect, and neither changes what the effect does not
name. -/
theorem execChangesOnlyWhatTheInstructionNames : Obligations.ExecChangesOnlyWhatTheInstructionNames := by
  unfold Obligations.ExecChangesOnlyWhatTheInstructionNames
  intro i s t ht
  obtain ⟨hm, hl⟩ := imem_progLen_exec ht
  exact ⟨fun r hr => readReg_exec_of_not_destination ht (.inr hr), imemRead_congr hm hl, hl,
    fun hb => flags_exec_of_isBranch hb ht, status_exec_cases ht⟩

/-! ## The top address -/

/-- A commit that does not go on to `pc + 1` raises no fault. -/
theorem commit_status_of_ne_sequential {e : Effect} (h : e.next ≠ .sequential) (s : State) :
    (commit e s).status = s.status ∨ (commit e s).status = .halted := by
  cases hn : e.next with
  | stop => exact .inr (by rw [commit_stop hn])
  | target t => exact .inl (by rw [commit_target hn, commitData_status])
  | sequential => contradiction

/-- Settles O22: a well-formed instruction commits its effect, and only a sequential commit looks for a successor. -/
theorem successorOfTheTopAddressFaults : Obligations.SuccessorOfTheTopAddressFaults := by
  unfold Obligations.SuccessorOfTheTopAddressFaults
  intro i s hw hpc hrun
  rcases exec_cases i s with ⟨f, hill, -⟩ | ⟨e, he, hexec⟩
  · simp [hw] at hill
  · rw [hexec]
    refine ⟨fun hgo => ?_, fun hgo => ⟨_, rfl, ?_⟩⟩
    · rw [commit_top (he.sequential.mpr hgo) hpc, raise, hpc]
    · have hn : e.next ≠ .sequential := fun hn => by simp [he.sequential.mp hn] at hgo
      rw [← hrun]
      exact commit_status_of_ne_sequential hn s

/-! ## The operand faults -/

/-- A slot of a well-shaped instruction holds a register, an 8-bit immediate or, in a transfer, a 12-bit immediate. -/
theorem operand_kinds_of_wellShaped {i : Instr} (h : i.wellShaped = true) {o : Operand} (ho : o ∈ i.operands) :
    o.isReg = true ∨ o.isImm8 = true ∨ (o.isImm12 = true ∧ i.mnemonic.format = .j) := by
  cases i with
  | halt | nop => cases ho
  | mv | not =>
    simp only [Instr.wellShaped, Bool.and_eq_true] at h
    simp only [Instr.operands, List.mem_cons, List.not_mem_nil, or_false] at ho
    rcases ho with rfl | rfl <;> simp [h]
  | add | sub | and | or | xor | addi | andi | ori | xori =>
    simp only [Instr.wellShaped, Bool.and_eq_true] at h
    simp only [Instr.operands, List.mem_cons, List.not_mem_nil, or_false] at ho
    rcases ho with rfl | rfl | rfl <;> simp [h]
  | jmp | bz | bnz =>
    cases List.mem_singleton.mp ho
    exact .inr (.inr ⟨h, rfl⟩)

/-- Of the well-shaped instructions, only transfers have a slot that holds a 12-bit immediate. -/
theorem format_of_imm12_mem {i : Instr} {t : BitVec 16} (hshape : i.wellShaped = true)
    (h : Operand.imm12 t ∈ i.operands) : i.mnemonic.format = .j := by
  rcases operand_kinds_of_wellShaped hshape h with hreg | himm8 | ⟨-, hj⟩
  · cases hreg
  · cases himm8
  · exact hj

/-- A 12-bit immediate above 4095 is out of shape (40_execution_cycle.md rule R91 check 2). -/
theorem exec_of_imm12_above {i : Instr} {t : BitVec 16} (h : Operand.imm12 t ∈ i.operands) (ht : 4095 < t.toNat)
    (s : State) : exec i s = .next (raise .invalidOperands s.pc s) := by
  cases hshape : i.wellShaped with
  | false => exact exec_of_not_wellShaped hshape s
  | true =>
    have hj := format_of_imm12_mem hshape h
    cases i with
    | jmp | bz | bnz =>
      cases List.mem_singleton.mp h
      exact runJ_error (operandsJ_range ht) _ _ s
    | _ => cases hj

/-- Settles O21: each format checks the kinds of its slots, then its register indices in order. -/
theorem faultPayloadAndCheckOrder : Obligations.FaultPayloadAndCheckOrder := by
  unfold Obligations.FaultPayloadAndCheckOrder
  exact fun i s => ⟨fun h => exec_of_not_wellShaped h s, fun t h ht => exec_of_imm12_above h ht s,
    fun n hshape hn => exec_of_badRegister hshape hn s⟩

end Sys2Proof.Machine
end

section
/-! PROOFS. The other binary instructions on registers (43_alu_register.md rules R121 to R125): each is one ALU operation in
format RRR. -/

namespace Sys2Proof.Machine

theorem exec_sub (rd rs1 rs2 : Operand) (s : State) : exec (.sub rd rs1 rs2) s = runRRR .sub rd rs1 rs2 s := rfl

theorem exec_and (rd rs1 rs2 : Operand) (s : State) : exec (.and rd rs1 rs2) s = runRRR .and rd rs1 rs2 s := rfl

theorem exec_or (rd rs1 rs2 : Operand) (s : State) : exec (.or rd rs1 rs2) s = runRRR .or rd rs1 rs2 s := rfl

theorem exec_xor (rd rs1 rs2 : Operand) (s : State) : exec (.xor rd rs1 rs2) s = runRRR .xor rd rs1 rs2 s := rfl

/-- Settles O31: SUB is a format RRR instruction whose ALU operation subtracts modulo 256, with the borrow in `V`. -/
theorem subLeavesTheDifferenceModulo256 : Obligations.SubLeavesTheDifferenceModulo256 := by
  unfold Obligations.SubLeavesTheDifferenceModulo256
  intro d a b
  refine ⟨encodeBlock_rrr OpMap.default (m := .sub) rfl d a b 0 0, fun s hpc => ?_⟩
  rw [exec_sub, ← alu_sub_toNat, ← alu_sub_carry]
  exact runRRR_leaves .sub d a b hpc

/-- Settles O32: AND is a format RRR instruction whose ALU operation is the bitwise and, without a carry. -/
theorem andLeavesTheBitwiseAnd : Obligations.AndLeavesTheBitwiseAnd := by
  unfold Obligations.AndLeavesTheBitwiseAnd
  intro d a b
  refine ⟨encodeBlock_rrr OpMap.default (m := .and) rfl d a b 0 0, fun s hpc => ?_⟩
  rw [exec_and, ← alu_and_toNat]
  exact runRRR_leaves .and d a b hpc

/-- Settles O33: OR is a format RRR instruction whose ALU operation is the bitwise inclusive or, without a carry. -/
theorem orLeavesTheBitwiseOr : Obligations.OrLeavesTheBitwiseOr := by
  unfold Obligations.OrLeavesTheBitwiseOr
  intro d a b
  refine ⟨encodeBlock_rrr OpMap.default (m := .or) rfl d a b 0 0, fun s hpc => ?_⟩
  rw [exec_or, ← alu_or_toNat]
  exact runRRR_leaves .or d a b hpc

/-- Settles O34: XOR is a format RRR instruction whose ALU operation is the bitwise exclusive or, without a carry. -/
theorem xorLeavesTheBitwiseXor : Obligations.XorLeavesTheBitwiseXor := by
  unfold Obligations.XorLeavesTheBitwiseXor
  intro d a b
  refine ⟨encodeBlock_rrr OpMap.default (m := .xor) rfl d a b 0 0, fun s hpc => ?_⟩
  rw [exec_xor, ← alu_xor_toNat]
  exact runRRR_leaves .xor d a b hpc

end Sys2Proof.Machine
end

section
/-! PROOFS. The other instructions with an immediate (44_alu_immediate.md rules R131 to R134): each is one ALU operation in
format I. -/

namespace Sys2Proof.Machine

theorem exec_andi (rd rs1 imm : Operand) (s : State) : exec (.andi rd rs1 imm) s = runI .and rd rs1 imm s := rfl

theorem exec_ori (rd rs1 imm : Operand) (s : State) : exec (.ori rd rs1 imm) s = runI .or rd rs1 imm s := rfl

theorem exec_xori (rd rs1 imm : Operand) (s : State) : exec (.xori rd rs1 imm) s = runI .xor rd rs1 imm s := rfl

/-- Settles O36: ANDI is a format I instruction whose ALU operation is the bitwise and, without a carry. -/
theorem andiLeavesTheBitwiseAnd : Obligations.AndiLeavesTheBitwiseAnd := by
  unfold Obligations.AndiLeavesTheBitwiseAnd
  intro d a k
  refine ⟨encodeBlock_i OpMap.default (m := .andi) rfl d a 0 k 0, fun s hpc => ?_⟩
  rw [exec_andi, ← alu_and_toNat]
  exact runI_leaves .and d a k hpc

/-- Settles O37: ORI is a format I instruction whose ALU operation is the bitwise inclusive or, without a carry. -/
theorem oriLeavesTheBitwiseOr : Obligations.OriLeavesTheBitwiseOr := by
  unfold Obligations.OriLeavesTheBitwiseOr
  intro d a k
  refine ⟨encodeBlock_i OpMap.default (m := .ori) rfl d a 0 k 0, fun s hpc => ?_⟩
  rw [exec_ori, ← alu_or_toNat]
  exact runI_leaves .or d a k hpc

/-- Settles O38: XORI is a format I instruction whose ALU operation is the bitwise exclusive or, without a carry. -/
theorem xoriLeavesTheBitwiseXor : Obligations.XoriLeavesTheBitwiseXor := by
  unfold Obligations.XoriLeavesTheBitwiseXor
  intro d a k
  refine ⟨encodeBlock_i OpMap.default (m := .xori) rfl d a 0 k 0, fun s hpc => ?_⟩
  rw [exec_xori, ← alu_xor_toNat]
  exact runI_leaves .xor d a k hpc

end Sys2Proof.Machine
end

section
/-! PROOFS. HALT (41_control_meta.md rule R110), the reset state, the word placed at `pc`, and the core on its ports
(70_reset_and_hazards.md rules R181 to R187). -/

namespace Sys2Proof.Machine

/-! ## HALT -/

theorem exec_halt (s : State) : exec .halt s = .next (commit ⟨none, clearedFlags, .stop⟩ s) := rfl

/-- A commit that stops leaves its flags and `STATUS` halted, and nothing else changed. -/
theorem commit_stop_leavesControl (flags : Flags) (s : State) :
    LeavesControl s (commit ⟨none, flags, .stop⟩ s) flags s.pc.toNat .halted :=
  ⟨commit_control_leaves flags .stop s, rfl, rfl, rfl, fun _ => rfl⟩

/-- Settles O26: HALT is a commit of cleared flags that stops, without a register write. -/
theorem haltStopsTheRun : Obligations.HaltStopsTheRun := by
  unfold Obligations.HaltStopsTheRun
  exact ⟨encodeBlock_n OpMap.default (m := .halt) rfl 0 0 0 0 0, by decide,
    fun s => ⟨_, exec_halt s, commit_stop_leavesControl clearedFlags s⟩⟩

/-! ## The reset state -/

/-- Settles O15: a running core has nothing to explain, and the empty memory is canonical. -/
theorem resetStateMeetsTheInvariants : Obligations.ResetStateMeetsTheInvariants := by
  unfold Obligations.ResetStateMeetsTheInvariants
  exact ⟨fun om => trivial, by decide⟩

/-! ## The word placed at `pc` -/

/-- The word placed at `pc` is the word fetched (20_memory.md rule R35). -/
theorem fetch_placeWord {s : State} (h : s.memoryOk = true) (w : Word24) : fetch (placeWord s w) = some w := by
  simp only [State.memoryOk, Bool.and_eq_true] at h
  have hlt : s.pc.toNat < (placeWord s w).progLen := by simp
  rw [fetch, imemRead, placeWord_pc, if_pos hlt, placeWord_imem, Memory.read_write_same h.1.1]

/-- Any other address below the old end reads as before. -/
theorem imemRead_placeWord {s : State} {a : Nat} (hne : a ≠ s.pc.toNat) (hlt : a < s.progLen) (w : Word24) :
    imemRead (placeWord s w) a = imemRead s a := by
  have hlt' : a < (placeWord s w).progLen := lt_max_of_lt_left hlt
  rw [imemRead, imemRead, if_pos hlt', if_pos hlt, placeWord_imem, Memory.read_write_other _ _ hne]

/-- Settles O10: reading after the write of the placed word, at `pc` and elsewhere. -/
theorem placedWordRunsNext : Obligations.PlacedWordRunsNext := by
  unfold Obligations.PlacedWordRunsNext
  exact fun s w hok => ⟨fetch_placeWord hok w,
    fun i hdec => stepWith_fetched (placeWord_status s w) (fetch_placeWord hok w) hdec,
    fun a hne hlt => imemRead_placeWord hne hlt w, rfl, rfl, rfl⟩

/-! ## The ports -/

/-- Inputs driven as the memory drives them show the core what the machine fetches (20_memory.md rule R41). -/
theorem fetchedOnPorts_of_consistent {p : Inputs} {s : State} (h : p.Consistent s) : fetchedOnPorts p = fetch s := by
  obtain ⟨hvalid, hdata⟩ := h
  by_cases hp : p.imemValid = true
  · rw [fetchedOnPorts, if_pos hp, fetch, hdata hp]
  · rw [fetchedOnPorts, if_neg hp, fetch_eq_none (Nat.not_lt.mp fun hlt => hp (hvalid.mpr hlt))]

/-- A core that sees on its ports what the machine fetches does what the machine does: both reset, stand still, or step on the
word fetched. -/
theorem coreEdgeWith_eq_clockEdgeWith (om : OpMap) {p : Inputs} {s : State} (h : fetchedOnPorts p = fetch s) :
    coreEdgeWith om p s = clockEdgeWith om p.rst s := by
  unfold coreEdgeWith clockEdgeWith stepWith
  cases p.rst with
  | true => rfl
  | false =>
    cases s.status with
    | running => exact congrArg (stepOnFetch om · s) h
    | halted | faulted _ _ => rfl

/-- With `imem_valid` low, nothing is fetched, whatever `imem_data` is. -/
theorem fetchedOnPorts_of_invalid {p : Inputs} (h : p.imemValid = false) : fetchedOnPorts p = none := by
  simp [fetchedOnPorts, h]

/-- Settles O24: the core on its ports steps on what it fetches there, and only `imem_valid` lets it look at `imem_data`. -/
theorem coreOnItsPortsIsTheMachine : Obligations.CoreOnItsPortsIsTheMachine := by
  unfold Obligations.CoreOnItsPortsIsTheMachine
  refine ⟨fun om p s hp => ?_, fun om p d s hvalid => ?_, fun om s => ?_⟩
  · exact coreEdgeWith_eq_clockEdgeWith om (fetchedOnPorts_of_consistent hp)
  · have hany : fetchedOnPorts { p with imemData := d } = none := fetchedOnPorts_of_invalid hvalid
    simp only [coreEdgeWith, hany, fetchedOnPorts_of_invalid hvalid]
  · exact ⟨resetCore s, clockEdgeWith_rst om s, resetCore_progLen s,
      imemRead_congr (resetCore_imem s) (resetCore_progLen s)⟩

/-- `obs_x[k + 1]` is the register `x[k + 1]`. -/
theorem readReg_eq_regs (s : State) (k : Fin 15) : readReg s (BitVec.ofNat 4 (k.val + 1)) = s.regs[k] := by
  have htoNat : (BitVec.ofNat 4 (k.val + 1)).toNat = k.val + 1 := Nat.mod_eq_of_lt (by omega)
  have hne : BitVec.ofNat 4 (k.val + 1) ≠ 0 := fun h => by simp [h] at htoNat
  simp only [readReg, dif_neg hne, htoNat, Nat.add_sub_cancel, Fin.getElem_fin]

/-- Settles O25: each output is a field of the state or is read off `STATUS`, one case for each of its values. -/
theorem outputsShowTheStatus : Obligations.OutputsShowTheStatus := by
  unfold Obligations.OutputsShowTheStatus
  intro s
  refine ⟨?_, ?_, ?_, ?_, rfl, rfl, rfl, rfl, fun k => (readReg_eq_regs s k).symm⟩
  · cases h : s.status <;> simp [outputs, statusState, h]
  · cases h : s.status <;> simp [outputs, statusState, h]
  · cases h : s.status <;> simp [outputs, statusState, statusFaultCode, statusFaultInfo, h]
  · intro kind info h
    refine ⟨by simp [outputs, statusFaultInfo, h], ?_⟩
    simp only [outputs, statusFaultCode, h]
    cases kind <;> rfl

end Sys2Proof.Machine
end

section
/-! PROOFS. The spec's own words (95_test_vectors.md sections 2 and 3). -/

/-- Settles O1: the decoder is evaluated on the seven words. -/
theorem Sys2Proof.specWordsDecode : Obligations.SpecWordsDecode := by
  unfold Obligations.SpecWordsDecode
  decide
end

section
/-! PROOFS. Fields set in any order (30_encoding.md rule R54): a field that fits changes its own bits only, so disjoint fields
commute. -/

namespace Sys2Proof

/-- A field lies beside another. -/
def FieldsDisjoint (f g : Nat × Nat × Nat) : Prop := f.1 + f.2.1 ≤ g.1 ∨ g.1 + g.2.1 ≤ f.1

/-- The value of a field fits it. -/
def FieldFits (f : Nat × Nat × Nat) : Prop := f.2.2 < 2 ^ f.2.1

/-- Two disjoint fields that fit can be set in either order. -/
theorem setFields_swap {f g : Nat × Nat × Nat} (hf : FieldFits f) (hg : FieldFits g) (h : FieldsDisjoint f g)
    (w : Word24) (fs : List (Nat × Nat × Nat)) : setFields w (f :: g :: fs) = setFields w (g :: f :: fs) := by
  obtain ⟨lo, width, v⟩ := f
  obtain ⟨lo', width', v'⟩ := g
  rw [setFields_cons_ok hf, setFields_cons_ok hg, setFields_cons_ok hg, setFields_cons_ok hf]
  congr 1
  apply BitVec.eq_of_getLsbD_eq
  intro k hk
  rw [getLsbD_put hg _ _ hk, getLsbD_put hf _ _ hk, getLsbD_put hf _ _ hk, getLsbD_put hg _ _ hk]
  dsimp only [FieldsDisjoint] at h ⊢
  by_cases hin : lo ≤ k ∧ k < lo + width
  · have hout : ¬(lo' ≤ k ∧ k < lo' + width') := by omega
    rw [if_pos hin, if_neg hout, if_pos hin]
  · rw [if_neg hin, if_neg hin]

/-- Behind a field, fields can be replaced by others that set the same. -/
theorem setFields_cons_congr {f : Nat × Nat × Nat} {fs gs : List (Nat × Nat × Nat)}
    (h : ∀ w, setFields w fs = setFields w gs) (w : Word24) : setFields w (f :: fs) = setFields w (f :: gs) := by
  unfold setFields
  split
  · exact h _
  · rfl

/-- Pairwise disjoint fields that fit can be set in any order. -/
theorem setFields_perm {fs gs : List (Nat × Nat × Nat)} (hperm : fs.Perm gs) (hfits : ∀ f ∈ fs, FieldFits f)
    (hdisj : fs.Pairwise FieldsDisjoint) (w : Word24) : setFields w fs = setFields w gs := by
  induction hperm generalizing w with
  | nil => rfl
  | cons f _ ih =>
    exact setFields_cons_congr (ih (fun g hg => hfits g (List.mem_cons_of_mem _ hg)) hdisj.of_cons) w
  | swap f g fs =>
    exact setFields_swap (hfits g (by simp)) (hfits f (by simp)) (List.rel_of_pairwise_cons hdisj (by simp)) w fs
  | trans h₁ _ ih₁ ih₂ =>
    have hsymm : ∀ {f g : Nat × Nat × Nat}, FieldsDisjoint f g → FieldsDisjoint g f := Or.symm
    rw [ih₁ hfits hdisj, ih₂ (fun f hf => hfits f (h₁.mem_iff.mpr hf)) ((h₁.pairwise_iff hsymm).mp hdisj)]

/-- Settles O5: the setter's answer is known bit by bit, and a permutation is a sequence of swaps of neighbours. -/
theorem fieldsCanBeSetInAnyOrder : Obligations.FieldsCanBeSetInAnyOrder := by
  unfold Obligations.FieldsCanBeSetInAnyOrder
  refine ⟨fun w lo width v _ => ⟨fun h => setField_overflow h w lo, fun h => ⟨_, setField_ok h w lo, fun k hk => ?_⟩⟩,
    fun w fs gs hperm hfits hdisj => setFields_perm hperm (fun f hf => (hfits f hf).2) hdisj w⟩
  exact getLsbD_put h w lo hk

end Sys2Proof
end

section
/-! PROOFS. The table of the default opcode map (30_encoding.md rules R52, R65): a word is an instruction's exactly when it has
the row's selector and nothing in its unused bits, said once as a mask and once as arithmetic. -/

namespace Sys2Proof

/-! ## Rows -/

/-- The word has the selector of the mnemonic's row and zero in every unused bit of the row's format. -/
def InRow (om : OpMap) (m : Mnemonic) (w : Word24) : Prop :=
  opcodeField w = om.code m ∧ unusedBitsZero m.format w = true

/-- With an injective map, a word decodes to an instruction with a mnemonic exactly when it is in the mnemonic's row. -/
theorem inRow_iff {om : OpMap} (hom : om.Injective) {m : Mnemonic} {w : Word24} :
    InRow om m w ↔ ∃ i, decodeWith om w = .instr i ∧ i.mnemonic = m := by
  constructor
  · rintro ⟨hc, hunused⟩
    refine ⟨instrOfFields m w, (decodeWith_eq_instr_iff hom).mpr ?_, mnemonic_instrOfFields m w⟩
    rw [Carries, mnemonic_instrOfFields]
    exact ⟨hc, hunused, rfl⟩
  · rintro ⟨i, hdec, rfl⟩
    obtain ⟨hc, hunused, -⟩ := (decodeWith_eq_instr_iff hom).mp hdec
    exact ⟨hc, hunused⟩

/-- A word is illegal exactly when it is in no row. -/
theorem decodeWith_illegal_iff {om : OpMap} (hom : om.Injective) {w : Word24} :
    decodeWith om w = .illegal w ↔ ∀ m, ¬ InRow om m w := by
  simp only [inRow_iff hom]
  cases hdec : decodeWith om w with
  | illegal v => simp [eq_of_decodeWith_illegal hdec]
  | instr i => simp

/-! ## The unused bits of a format -/

/-- The unused bits of a format's words: the lowest and how many (R53). -/
def Format.unusedBits : Format → Nat × Nat
  | .n => (8, 16)
  | .rr => (16, 8)
  | .rrr => (20, 4)
  | .i => (24, 0)
  | .j => (8, 4)

/-- Unused bits that are zero, as arithmetic on the word's value. -/
theorem unusedBitsZero_iff {f : Format} {w : Word24} :
    unusedBitsZero f w = true ↔ w.toNat / 2 ^ f.unusedBits.1 % 2 ^ f.unusedBits.2 = 0 := by
  cases f with
  | n | rr | rrr | j => exact decide_field_eq_zero_iff
  | i => simp [unusedBitsZero, Format.unusedBits, Nat.mod_one]

/-! ## Rows as masks -/

/-- The bits of a format's words that are fixed: the selector's eight and the unused ones. -/
def Format.fixedBits (f : Format) : Word24 :=
  BitVec.ofNat 24 ((2 ^ 8 - 1) ||| (2 ^ f.unusedBits.2 - 1) * 2 ^ f.unusedBits.1)

theorem rowMask_eq (m : Mnemonic) : m.rowMask = m.format.fixedBits := by cases m <;> rfl

theorem rowMatch_eq (m : Mnemonic) : m.rowMatch = selectorWord (OpMap.default.code m) := by cases m <;> decide

/-- Masking out `width` bits from `lo` on. -/
theorem and_shifted_mask (n lo width : Nat) : n &&& (2 ^ width - 1) * 2 ^ lo = 2 ^ lo * (n / 2 ^ lo % 2 ^ width) := by
  apply Nat.eq_of_testBit_eq
  intro k
  rw [Nat.testBit_and, Nat.testBit_mul_two_pow, Nat.testBit_two_pow_sub_one, Nat.testBit_two_pow_mul,
    Nat.testBit_mod_two_pow, Nat.testBit_div_two_pow]
  by_cases hk : lo ≤ k
  · simp [hk, Bool.and_comm]
  · simp [hk]

/-- Masking out the selector's eight bits and `width` bits from `lo` on. -/
theorem and_selector_or_shifted_mask (n width : Nat) {lo : Nat} (h : 8 ≤ lo) :
    n &&& ((2 ^ 8 - 1) ||| (2 ^ width - 1) * 2 ^ lo) = 2 ^ lo * (n / 2 ^ lo % 2 ^ width) + n % 2 ^ 8 := by
  have hlow : n % 2 ^ 8 < 2 ^ lo := (Nat.mod_lt _ (by decide)).trans_le (Nat.pow_le_pow_right (by decide) h)
  rw [Nat.and_or_distrib_left, Nat.and_two_pow_sub_one_eq_mod, and_shifted_mask, Nat.or_comm,
    Nat.two_pow_add_eq_or_of_lt hlow]

/-- The fixed bits of a word are its selector and nothing else exactly when the unused ones are zero. -/
theorem and_fixedBits_eq_iff {f : Format} {w : Word24} {c : OpCode} :
    w &&& f.fixedBits = selectorWord c ↔ opcodeField w = c ∧ unusedBitsZero f w = true := by
  have hc := selectorWord_lt c
  have hw := w.isLt
  have hmask : (w &&& f.fixedBits).toNat
      = 2 ^ f.unusedBits.1 * (w.toNat / 2 ^ f.unusedBits.1 % 2 ^ f.unusedBits.2) + w.toNat % 2 ^ 8 := by
    rw [BitVec.toNat_and, ← and_selector_or_shifted_mask _ _ (by cases f <;> decide)]
    cases f <;> rfl
  rw [opcodeField_eq_iff, unusedBitsZero_iff, ← BitVec.toNat_inj, hmask]
  cases f <;> simp only [Format.unusedBits] <;> omega

/-- Settles O4: the row's mask is its fixed bits and its match is its selector. -/
theorem wordIsTheInstructionOfItsTableRow : Obligations.WordIsTheInstructionOfItsTableRow := by
  unfold Obligations.WordIsTheInstructionOfItsTableRow
  intro w m
  rw [rowMask_eq, rowMatch_eq, and_fixedBits_eq_iff]
  exact inRow_iff OpMap.default_injective

/-! ## Rows as arithmetic -/

/-- A row as arithmetic on the word's value. -/
theorem inRow_iff_toNat {om : OpMap} {m : Mnemonic} {w : Word24} :
    InRow om m w ↔ w.toNat % 64 = (om.code m).opcode.toNat ∧ w.toNat / 64 % 4 = (om.code m).funct.toNat ∧
      w.toNat / 2 ^ m.format.unusedBits.1 % 2 ^ m.format.unusedBits.2 = 0 := by
  have hop := (om.code m).opcode.isLt
  have hfn := (om.code m).funct.isLt
  rw [InRow, opcodeField_eq_iff, unusedBitsZero_iff, selectorWord_toNat]
  omega

/-- The words of the rows of the default map, format by format: the selectors assigned, and zero in the unused bits. -/
theorem exists_inRow_default_iff {w : Word24} :
    (∃ m, InRow OpMap.default m w) ↔
      (w.toNat / 64 % 4 = 0 ∧ w.toNat % 64 ≤ 1 ∧ w.toNat / 256 = 0) ∨
      (w.toNat / 64 % 4 = 0 ∧ 2 ≤ w.toNat % 64 ∧ w.toNat % 64 ≤ 3 ∧ w.toNat / 65536 = 0) ∨
      (w.toNat / 64 % 4 = 0 ∧ 4 ≤ w.toNat % 64 ∧ w.toNat % 64 ≤ 8 ∧ w.toNat / 1048576 = 0) ∨
      (w.toNat / 64 % 4 = 1 ∧ (w.toNat % 64 = 4 ∨ w.toNat % 64 = 6 ∨ w.toNat % 64 = 7 ∨ w.toNat % 64 = 8)) ∨
      (w.toNat / 64 % 4 = 2 ∧ 9 ≤ w.toNat % 64 ∧ w.toNat % 64 ≤ 11 ∧ w.toNat / 256 % 16 = 0) := by
  have hw := w.isLt
  simp only [inRow_iff_toNat]
  constructor
  · rintro ⟨m, h⟩
    cases m <;> simp [OpMap.default, Mnemonic.format, Format.unusedBits] at h <;> omega
  · rintro (⟨hf, ho, hu⟩ | ⟨hf, ho, ho', hu⟩ | ⟨hf, ho, ho', hu⟩ | ⟨hf, ho⟩ | ⟨hf, ho, ho', hu⟩)
    · have hu : w.toNat / 2 ^ 8 % 2 ^ 16 = 0 := by omega
      obtain ho | ho : w.toNat % 64 = 0 ∨ w.toNat % 64 = 1 := by omega
      · exact ⟨.halt, ho, hf, hu⟩
      · exact ⟨.nop, ho, hf, hu⟩
    · have hu : w.toNat / 2 ^ 16 % 2 ^ 8 = 0 := by omega
      obtain ho | ho : w.toNat % 64 = 2 ∨ w.toNat % 64 = 3 := by omega
      · exact ⟨.mv, ho, hf, hu⟩
      · exact ⟨.not, ho, hf, hu⟩
    · have hu : w.toNat / 2 ^ 20 % 2 ^ 4 = 0 := by omega
      obtain ho | ho | ho | ho | ho : w.toNat % 64 = 4 ∨ w.toNat % 64 = 5 ∨ w.toNat % 64 = 6 ∨ w.toNat % 64 = 7 ∨
        w.toNat % 64 = 8 := by omega
      · exact ⟨.add, ho, hf, hu⟩
      · exact ⟨.sub, ho, hf, hu⟩
      · exact ⟨.and, ho, hf, hu⟩
      · exact ⟨.or, ho, hf, hu⟩
      · exact ⟨.xor, ho, hf, hu⟩
    · have hu : w.toNat / 2 ^ 24 % 2 ^ 0 = 0 := by omega
      obtain ho | ho | ho | ho := ho
      · exact ⟨.addi, ho, hf, hu⟩
      · exact ⟨.andi, ho, hf, hu⟩
      · exact ⟨.ori, ho, hf, hu⟩
      · exact ⟨.xori, ho, hf, hu⟩
    · have hu : w.toNat / 2 ^ 8 % 2 ^ 4 = 0 := by omega
      obtain ho | ho | ho : w.toNat % 64 = 9 ∨ w.toNat % 64 = 10 ∨ w.toNat % 64 = 11 := by omega
      · exact ⟨.jmp, ho, hf, hu⟩
      · exact ⟨.bz, ho, hf, hu⟩
      · exact ⟨.bnz, ho, hf, hu⟩

/-- Settles O3: a word is illegal exactly when it is in no row, and the classes are what the rows leave over. -/
theorem illegalWordsAreExactlyTheReservedOnes : Obligations.IllegalWordsAreExactlyTheReservedOnes := by
  unfold Obligations.IllegalWordsAreExactlyTheReservedOnes
  intro w
  refine (decodeWith_illegal_iff OpMap.default_injective).trans ?_
  rw [← not_exists, exists_inRow_default_iff]
  have hf : w.toNat / 64 % 4 < 4 := Nat.mod_lt _ (by decide)
  generalize w.toNat / 64 % 4 = funct at hf ⊢
  interval_cases funct <;> simp <;> omega

end Sys2Proof
end

section
/-! PROOFS. When the encoder gives a word (30_encoding.md rules R57 to R61): for well-formed instructions, and no others. -/

namespace Sys2Proof

/-- A value that does not fit its field is the error of the whole, whatever the fields before it (R61). -/
theorem setFields_overflow {fs : List (Nat × Nat × Nat)} (h : ¬ ∀ f ∈ fs, FieldFits f) (w : Word24) :
    setFields w fs = .error .overflow := by
  induction fs generalizing w with
  | nil => simp at h
  | cons f fs ih =>
    obtain ⟨lo, width, v⟩ := f
    by_cases hv : v < 2 ^ width
    · rw [setFields_cons_ok hv]
      exact ih (fun hfs => h (List.forall_mem_cons.mpr ⟨hv, hfs⟩)) _
    · exact setFields_cons_overflow (Nat.not_lt.mp hv) w lo fs

/-- An operand field that does not fit is an overflow of the encoder block. -/
theorem encodeBlock_overflow {om : OpMap} {m : Mnemonic} {d a b k : Byte} {t : BitVec 16}
    (h : ¬ ∀ f ∈ operandFields m.format d a b k t, FieldFits f) : encodeBlock om m d a b k t = .error .overflow := by
  rw [encodeBlock, setFields_selector]
  exact setFields_overflow h _

theorem inRange_reg_iff {n : Byte} (lo : Nat) : (Operand.reg n).inRange = true ↔ FieldFits (lo, 4, n.toNat) := by
  simp only [Operand.inRange, FieldFits, decide_eq_true_eq]
  omega

theorem inRange_imm12_iff {t : BitVec 16} (lo : Nat) :
    (Operand.imm12 t).inRange = true ↔ FieldFits (lo, 12, t.toNat) := by
  simp only [Operand.inRange, FieldFits, decide_eq_true_eq]
  omega

/-! ## Each format's encoder on slots of its own kinds -/

theorem encodeRR_overflow (om : OpMap) {m : Mnemonic} (hm : m.format = .rr) {d a : Operand}
    (hshape : (d.isReg && a.isReg) = true) (hrange : ¬ ∀ o ∈ [d, a], o.inRange = true) :
    encodeRR om m d a = .error .overflow := by
  simp only [Bool.and_eq_true] at hshape
  obtain ⟨⟨n, rfl⟩, ⟨k, rfl⟩⟩ := hshape.imp Operand.eq_reg Operand.eq_reg
  refine encodeBlock_overflow fun hfits => hrange ?_
  simpa [operandFields, hm, ← inRange_reg_iff] using hfits

theorem encodeRRR_overflow (om : OpMap) {m : Mnemonic} (hm : m.format = .rrr) {d a b : Operand}
    (hshape : (d.isReg && a.isReg && b.isReg) = true) (hrange : ¬ ∀ o ∈ [d, a, b], o.inRange = true) :
    encodeRRR om m d a b = .error .overflow := by
  simp only [Bool.and_eq_true] at hshape
  obtain ⟨⟨⟨n, rfl⟩, ⟨k, rfl⟩⟩, ⟨l, rfl⟩⟩ := hshape.imp (And.imp Operand.eq_reg Operand.eq_reg) Operand.eq_reg
  refine encodeBlock_overflow fun hfits => hrange ?_
  simpa [operandFields, hm, ← inRange_reg_iff] using hfits

theorem encodeI_overflow (om : OpMap) {m : Mnemonic} (hm : m.format = .i) {d a v : Operand}
    (hshape : (d.isReg && a.isReg && v.isImm8) = true) (hrange : ¬ ∀ o ∈ [d, a, v], o.inRange = true) :
    encodeI om m d a v = .error .overflow := by
  simp only [Bool.and_eq_true] at hshape
  obtain ⟨⟨⟨n, rfl⟩, ⟨k, rfl⟩⟩, ⟨u, rfl⟩⟩ := hshape.imp (And.imp Operand.eq_reg Operand.eq_reg) Operand.eq_imm8
  refine encodeBlock_overflow fun hfits => hrange ?_
  simp only [operandFields, hm, List.forall_mem_cons, ← inRange_reg_iff] at hfits ⊢
  exact ⟨hfits.1, hfits.2.1, rfl, by simp⟩

theorem encodeJ_overflow (om : OpMap) {m : Mnemonic} (hm : m.format = .j) {t : Operand}
    (hshape : t.isImm12 = true) (hrange : ¬ ∀ o ∈ [t], o.inRange = true) : encodeJ om m t = .error .overflow := by
  cases t with
  | imm12 v =>
    refine encodeBlock_overflow fun hfits => hrange ?_
    simpa [operandFields, hm, ← inRange_imm12_iff] using hfits
  | reg _ | imm8 _ | label _ => cases hshape

/-- A well-shaped instruction with a value out of range is an overflow error (rules R59, R60). -/
theorem encodeWith_overflow {i : Instr} (hshape : i.wellShaped = true) (hw : i.wellFormed = false) (om : OpMap) :
    encodeWith om i = .error .overflow := by
  have hrange : ¬ ∀ o ∈ i.operands, o.inRange = true := by
    rw [← List.all_eq_true, Bool.not_eq_true]
    simpa [Instr.wellFormed, hshape] using hw
  cases i with
  | halt | nop => cases hw
  | mv | not => exact encodeRR_overflow om rfl hshape hrange
  | add | sub | and | or | xor => exact encodeRRR_overflow om rfl hshape hrange
  | addi | andi | ori | xori => exact encodeI_overflow om rfl hshape hrange
  | jmp | bz | bnz => exact encodeJ_overflow om rfl hshape hrange

/-- Everything the encoder answers: a word, an overflow, or a refusal of the operand kinds. -/
theorem encodeWith_cases (om : OpMap) (i : Instr) :
    (i.wellFormed = true ∧ ∃ w, encodeWith om i = .ok w) ∨
    (i.wellShaped = true ∧ i.wellFormed = false ∧ encodeWith om i = .error .overflow) ∨
    (i.wellShaped = false ∧ i.wellFormed = false ∧ encodeWith om i = .error .invalidOperand) := by
  cases hw : i.wellFormed with
  | true =>
    obtain ⟨w, h, -⟩ := encodeWith_wellFormed hw om
    exact .inl ⟨rfl, w, h⟩
  | false =>
    cases hshape : i.wellShaped with
    | true => exact .inr (.inl ⟨rfl, rfl, encodeWith_overflow hshape hw om⟩)
    | false => exact .inr (.inr ⟨rfl, rfl, encoderRefusesWrongOperandKinds om i hshape⟩)

/-- Settles O7: the three answers of the encoder exclude each other. -/
theorem encoderRefusesExactlyTheIllFormed : Obligations.EncoderRefusesExactlyTheIllFormed := by
  unfold Obligations.EncoderRefusesExactlyTheIllFormed
  refine fun om i => ⟨?_, fun hshape hw => encodeWith_overflow hshape hw om, ?_, fun n => rfl⟩
  · rcases encodeWith_cases om i with ⟨hw, w, h⟩ | ⟨-, hw, h⟩ | ⟨-, hw, h⟩ <;> simp [hw, h]
  · rcases encodeWith_cases om i with ⟨-, w, h⟩ | ⟨-, -, h⟩ | ⟨-, -, h⟩ <;> simp [h]

end Sys2Proof
end

section
/-! PROOFS. The abstract level and the word level (40_execution_cycle.md section 1; decision D29): a loaded program reads as its
words, and each word decodes to the instruction it encodes. -/

namespace Sys2Proof.Machine

/-- A loaded program is the instruction memory, and nothing is beyond its end, whatever else the state holds (20_memory.md
rules R30, R31). -/
theorem imemRead_of_loadProgram {ws : List Word24} {s t : State} (h : loadProgram ws s = .ok t) (a : Nat) :
    imemRead t a = ws[a]? := by
  unfold loadProgram at h
  split at h
  next hlen =>
    obtain ⟨b, hb, -, hread⟩ := bootProgram_reads hlen
    cases (if_pos hlen).symm.trans hb
    cases h
    exact hread a
  · cases h

/-- With an injective map, the word of an instruction decodes to it. -/
theorem decodeWith_of_encodeWith {om : OpMap} (hom : om.Injective) {i : Instr} {w : Word24}
    (h : encodeWith om i = .ok w) : decodeWith om w = .instr i := by
  have hw : i.wellFormed = true := ((encoderRefusesExactlyTheIllFormed om i).1).mp ⟨w, h⟩
  obtain ⟨v, hv, hdec⟩ := (decodeAndEncodeAreInverse om hom).1 i hw
  cases hv.symm.trans h
  exact hdec

/-- Where a program has no instruction it has no word, and where it has one its word decodes to it. -/
theorem words_decode_to_program {om : OpMap} (hom : om.Injective) {p : List Instr} {ws : List Word24}
    (h : encodeProgramWith om p = .ok ws) (a : Nat) :
    (p[a]? = none ∧ ws[a]? = none) ∨ ∃ i w, p[a]? = some i ∧ ws[a]? = some w ∧ decodeWith om w = .instr i := by
  obtain ⟨hlen, hget, -⟩ := (encodedProgramKeepsOrderAndAddresses om p).1 ws h
  cases hi : p[a]? with
  | none =>
    rw [List.getElem?_eq_none_iff] at hi ⊢
    exact .inl ⟨rfl, hlen.trans_le hi⟩
  | some i =>
    obtain ⟨w, hw, hencode⟩ := hget a i hi
    exact .inr ⟨i, w, rfl, hw, decodeWith_of_encodeWith hom hencode⟩

/-- Settles O49: a running core fetches the word of the instruction that the interpreter fetches, and decodes it to that
instruction. -/
theorem abstractAndWordLevelsAgree : Obligations.AbstractAndWordLevelsAgree := by
  unfold Obligations.AbstractAndWordLevelsAgree
  intro om hom p ws s s' hencode hload
  unfold stepWith stepSource
  cases s'.status with
  | halted | faulted _ _ => rfl
  | running =>
    simp only [fetch, imemRead_of_loadProgram hload, List.getElem?_map]
    rcases words_decode_to_program hom hencode s'.pc.toNat with ⟨hp, hws⟩ | ⟨i, w, hp, hws, hdec⟩
    · simp only [hp, hws, stepOnFetch, Option.map_none]
    · simp only [hp, hws, stepOnFetch, Option.map_some, hdec, execSource]

end Sys2Proof.Machine
end

section
/-! PROOFS. The first failed line (30_encoding.md rule R77). -/

namespace Sys2Proof.Machine

theorem parseLinesFrom_cons_error {line : List Char} {e : ParseProblem} (h : parseLine line = .error e) (n : Nat)
    (rest : List (List Char)) : parseLinesFrom n (line :: rest) = .error ⟨n, e⟩ := by
  simp only [parseLinesFrom, h]

/-- Behind lines that parse, an error keeps its line number and its problem. -/
theorem parseLinesFrom_append_error {before : List (List Char)} (h : ∀ l ∈ before, ∃ item, parseLine l = .ok item)
    (rest : List (List Char)) (n : Nat) {e : ParseError} (he : parseLinesFrom (n + before.length) rest = .error e) :
    parseLinesFrom n (before ++ rest) = .error e := by
  induction before generalizing n with
  | nil => exact he
  | cons l before ih =>
    obtain ⟨⟨item, hl⟩, hbefore⟩ := List.forall_mem_cons.mp h
    have hrest := ih hbefore (n + 1) (by rwa [List.length_cons, ← Nat.add_assoc, Nat.add_right_comm] at he)
    simp only [List.cons_append, parseLinesFrom, hl, hrest]

/-- Lines that all parse make a program. -/
theorem parseLinesFrom_ok {lines : List (List Char)} (h : ∀ l ∈ lines, ∃ item, parseLine l = .ok item) (n : Nat) :
    ∃ p, parseLinesFrom n lines = .ok p := by
  induction lines generalizing n with
  | nil => exact ⟨[], rfl⟩
  | cons l lines ih =>
    obtain ⟨⟨item, hl⟩, hlines⟩ := List.forall_mem_cons.mp h
    obtain ⟨p, hp⟩ := ih hlines (n + 1)
    exact ⟨item.toList ++ p, by simp only [parseLinesFrom, hl, hp]⟩

/-- A line whose first word is no mnemonic, and that is no label, is an unknown mnemonic. -/
theorem parseLine_unknownMnemonic {line : List Char} (hne : (trim (stripComment line)).isEmpty = false)
    (hlabel : (trim (stripComment line)).getLast? ≠ some ':')
    (hword : mnemonicOfText ((trim (stripComment line)).takeWhile (fun c => !isBlank c)) = none) :
    parseLine line = .error .unknownMnemonic := by
  simp [parseLine, hne, hlabel, parseInstrLine, hword]

/-- Settles O54: the lines before the failed one only move its number on. -/
theorem firstFailedLineFailsTheProgram : Obligations.FirstFailedLineFailsTheProgram := by
  unfold Obligations.FirstFailedLineFailsTheProgram
  refine ⟨fun before line after e hbefore hline => ?_, fun lines h => parseLinesFrom_ok h 1,
    fun line => parseLine_unknownMnemonic⟩
  refine parseLinesFrom_append_error hbefore _ 1 ?_
  rw [parseLinesFrom_cons_error hline, Nat.add_comm]

end Sys2Proof.Machine
end

section
/-! PROOFS. Program files (20_memory.md rule R33). -/

namespace Sys2Proof.Machine

/-- The bytes of a container, put together. -/
theorem bytes_or_eq (c : Container) :
    (c.extractLsb' 0 8).setWidth 32 ||| (c.extractLsb' 8 8).setWidth 32 <<< 8 |||
      (c.extractLsb' 16 8).setWidth 32 <<< 16 ||| (c.extractLsb' 24 8).setWidth 32 <<< 24 = c := by
  apply BitVec.eq_of_getLsbD_eq
  intro k hk
  interval_cases k <;> simp

/-- The first container of a file is the one whose bytes come first, in either order. -/
theorem containersOfFile_append {order : Endian} {bytes : List Byte} {cs : List Container}
    (h : containersOfFile order bytes = .ok cs) (c : Container) :
    containersOfFile order (containerBytes order c ++ bytes) = .ok (c :: cs) := by
  have hbytes := bytes_or_eq c
  cases order <;> simp only [containerBytes, List.cons_append, List.nil_append, containersOfFile, h, containerOfBytes,
    hbytes]

theorem containersOfFile_programFile (order : Endian) (ws : List Word24) :
    containersOfFile order (programFile order ws) = .ok (ws.map containerOfWord) := by
  induction ws with
  | nil => rfl
  | cons w ws ih => exact containersOfFile_append ih (containerOfWord w)

theorem length_containerBytes (order : Endian) (c : Container) : (containerBytes order c).length = 4 := by
  cases order <;> rfl

theorem length_programFile (order : Endian) (ws : List Word24) : (programFile order ws).length = 4 * ws.length := by
  induction ws with
  | nil => rfl
  | cons w ws ih =>
    rw [programFile, List.length_append, length_containerBytes, ih, List.length_cons]
    omega

/-- The top eight bits of a container are zero exactly when its value fits a word. -/
theorem topByte_eq_zero_iff {c : Container} : c.extractLsb' 24 8 = 0 ↔ c.toNat < 2 ^ 24 := by
  rw [← BitVec.toNat_inj, BitVec.extractLsb'_toNat, Nat.shiftRight_eq_div_pow]
  have := c.isLt
  simp only [BitVec.ofNat_eq_ofNat, BitVec.toNat_ofNat, Nat.zero_mod]
  omega

theorem wordOfContainer_narrow {c : Container} (h : c.toNat < 2 ^ 24) : wordOfContainer c = .ok (c.setWidth 24) :=
  if_pos (topByte_eq_zero_iff.mpr h)

/-- A container with one of its top eight bits set is refused. -/
theorem wordOfContainer_wide {c : Container} (h : 2 ^ 24 ≤ c.toNat) :
    wordOfContainer c = .error (.containerTooWide c) :=
  if_neg fun hzero => Nat.not_lt.mpr h (topByte_eq_zero_iff.mp hzero)

theorem wordOfContainer_containerOfWord (w : Word24) : wordOfContainer (containerOfWord w) = .ok w := by
  have hnarrow : (containerOfWord w).toNat < 2 ^ 24 := by
    rw [containerOfWord, BitVec.toNat_setWidth_of_le (by omega)]
    exact w.isLt
  rw [wordOfContainer_narrow hnarrow, containerOfWord, BitVec.setWidth_setWidth_of_le _ (by omega), BitVec.setWidth_eq]

theorem wordsOfContainers_map (ws : List Word24) : wordsOfContainers (ws.map containerOfWord) = .ok ws := by
  induction ws with
  | nil => rfl
  | cons w ws ih => simp only [List.map_cons, wordsOfContainers, wordOfContainer_containerOfWord, ih]

/-- Settles O55: a file is read back container by container, and a container gives back its word. -/
theorem programFilesRoundTrip : Obligations.ProgramFilesRoundTrip := by
  unfold Obligations.ProgramFilesRoundTrip
  refine ⟨fun order ws => ⟨containersOfFile_programFile order ws, length_programFile order ws, wordsOfContainers_map ws⟩,
    fun c => wordOfContainer_wide, fun c h => ⟨_, wordOfContainer_narrow h, ?_⟩⟩
  rw [BitVec.toNat_setWidth, Nat.mod_eq_of_lt h]

end Sys2Proof.Machine
end

section
/-! PROOFS. Pass 1 of the resolver (30_encoding.md rule R79): the table it builds, and the duplicate it refuses. -/

namespace Sys2Proof.Machine

/-! ## Tables -/

/-- A name has no address in a table exactly when the table does not list it. -/
theorem lookupSymbol_eq_none_iff {t : SymbolTable} {n : String} : lookupSymbol t n = none ↔ n ∉ t.map Prod.fst := by
  induction t with
  | nil => simp [lookupSymbol]
  | cons c t ih =>
    obtain ⟨m, a⟩ := c
    by_cases hm : m = n
    · simp [lookupSymbol, hm]
    · simp [lookupSymbol, hm, Ne.symm hm, ih]

/-- In a table without duplicates, an entry is what its name looks up. -/
theorem lookupSymbol_of_mem {t : SymbolTable} (hnodup : (t.map Prod.fst).Nodup) {n : String} {a : Nat}
    (h : (n, a) ∈ t) : lookupSymbol t n = some a := by
  induction t with
  | nil => cases h
  | cons c t ih =>
    obtain ⟨m, b⟩ := c
    obtain ⟨hm, hnodup⟩ := List.nodup_cons.mp hnodup
    rcases List.mem_cons.mp h with heq | hmem
    · cases heq
      simp [lookupSymbol]
    · have hne : m ≠ n := by
        rintro rfl
        exact hm (List.mem_map.mpr ⟨_, hmem, rfl⟩)
      simp [lookupSymbol, hne, ih hnodup hmem]

/-! ## The labels of a program -/

@[simp] theorem labelNames_label (n : String) (p : List SourceInstr) :
    labelNames (.label n :: p) = n :: labelNames p := rfl

@[simp] theorem labelNames_instr (i : Instr) (p : List SourceInstr) : labelNames (.instr i :: p) = labelNames p := rfl

@[simp] theorem instrCount_label (n : String) (p : List SourceInstr) :
    instrCount (.label n :: p) = instrCount p := by
  simp [instrCount]

@[simp] theorem instrCount_instr (i : Instr) (p : List SourceInstr) :
    instrCount (.instr i :: p) = instrCount p + 1 := by
  simp [instrCount]

/-- The item is an instruction. -/
def SourceInstr.isInstr : SourceInstr → Bool
  | .label _ => false
  | .instr _ => true

/-- The labels of a program with their addresses, from an address on (R79). -/
def labelTable (a : Nat) : List SourceInstr → SymbolTable
  | [] => []
  | .label n :: p => (n, a) :: labelTable a p
  | .instr _ :: p => labelTable (a + 1) p

theorem map_fst_labelTable (a : Nat) (p : List SourceInstr) : (labelTable a p).map Prod.fst = labelNames p := by
  induction p generalizing a with
  | nil => rfl
  | cons x p ih => cases x <;> simp [labelTable, ih]

/-- A label's entry holds the number of instructions before it. -/
theorem mem_labelTable {p : List SourceInstr} {k : Nat} {n : String} (h : p[k]? = some (.label n)) (a : Nat) :
    (n, a + instrCount (p.take k)) ∈ labelTable a p := by
  induction p generalizing k a with
  | nil => cases h
  | cons x p ih =>
    cases k with
    | zero =>
      cases h
      exact List.mem_cons_self
    | succ k =>
      have hmem := ih (by simpa using h)
      cases x with
      | label m =>
        rw [List.take_succ_cons, instrCount_label]
        exact List.mem_cons_of_mem _ (hmem a)
      | instr i =>
        rw [List.take_succ_cons, instrCount_instr, Nat.add_comm _ 1, ← Nat.add_assoc]
        exact hmem (a + 1)

/-! ## The pass -/

/-- Without a duplicate, pass 1 drops the labels and adds their entries to the table. -/
theorem stripFrom_ok {p : List SourceInstr} {t : SymbolTable} (h : (t.map Prod.fst ++ labelNames p).Nodup) (a : Nat) :
    stripFrom a t p = .ok (p.filter SourceInstr.isInstr, t ++ labelTable a p) := by
  induction p generalizing a t with
  | nil => simp [stripFrom, labelTable]
  | cons x p ih =>
    cases x with
    | label n =>
      have hnew : lookupSymbol t n = none := by
        rw [lookupSymbol_eq_none_iff]
        exact fun hmem => (List.disjoint_of_nodup_append h) hmem (by simp)
      have hrest : ((t ++ [(n, a)]).map Prod.fst ++ labelNames p).Nodup := by simpa using h
      simp [stripFrom, hnew, ih hrest, labelTable, SourceInstr.isInstr]
    | instr i => simp [stripFrom, ih h, labelTable, List.filter_cons, SourceInstr.isInstr]

/-- With a duplicate, pass 1 fails with a name that stands twice. -/
theorem stripFrom_duplicate {p : List SourceInstr} {t : SymbolTable} (ht : (t.map Prod.fst).Nodup)
    (h : ¬ (t.map Prod.fst ++ labelNames p).Nodup) (a : Nat) :
    ∃ n, stripFrom a t p = .error (.duplicateLabel n) ∧ 2 ≤ (t.map Prod.fst ++ labelNames p).count n := by
  induction p generalizing a t with
  | nil => simp [labelNames, ht] at h
  | cons x p ih =>
    cases x with
    | label n =>
      cases hlookup : lookupSymbol t n with
      | some b =>
        refine ⟨n, by simp only [stripFrom, hlookup], ?_⟩
        have hmem : n ∈ t.map Prod.fst := by
          by_contra hnot
          simp [lookupSymbol_eq_none_iff.mpr hnot] at hlookup
        have hold := List.count_pos_iff.mpr hmem
        rw [List.count_append, labelNames_label, List.count_cons_self]
        omega
      | none =>
        have hnew := lookupSymbol_eq_none_iff.mp hlookup
        have hcons : t.map Prod.fst ++ labelNames (.label n :: p) = (t ++ [(n, a)]).map Prod.fst ++ labelNames p := by
          simp
        rw [hcons] at h ⊢
        have hnodup : ((t ++ [(n, a)]).map Prod.fst).Nodup := by
          rw [List.map_append]
          exact ht.append (List.nodup_singleton n) (List.disjoint_singleton.mpr hnew)
        obtain ⟨m, hm, hcount⟩ := ih hnodup h a
        exact ⟨m, by simp only [stripFrom, hlookup, hm], hcount⟩
    | instr i =>
      obtain ⟨m, hm, hcount⟩ := ih ht h (a + 1)
      exact ⟨m, by simp only [stripFrom, hm], hcount⟩

/-- Settles O50: by induction on the program, from any address and any table on. -/
theorem stripRecordsTheAddressOfEachLabel : Obligations.StripRecordsTheAddressOfEachLabel := by
  unfold Obligations.StripRecordsTheAddressOfEachLabel
  refine fun p => ⟨fun h => ?_, fun h => stripFrom_duplicate (t := []) List.nodup_nil h 0⟩
  have htable := map_fst_labelTable 0 p
  refine ⟨_, _, stripFrom_ok (t := []) h 0, List.filter_congr fun i _ => by cases i <;> rfl, htable, fun k n hk => ?_⟩
  have hmem := mem_labelTable hk 0
  rw [Nat.zero_add] at hmem
  exact lookupSymbol_of_mem (htable ▸ h) hmem

end Sys2Proof.Machine
end

section
/-! PROOFS. Pass 2 of the resolver (30_encoding.md rules R80 to R82): what it makes of each instruction, and when it fails. -/

namespace Sys2Proof.Machine

/-! ## One instruction -/

/-- What pass 2 makes of an instruction: the label of a branch becomes its address, everything else stays. -/
structure Resolved (t : SymbolTable) (i i' : Instr) : Prop where
  mnemonic : i'.mnemonic = i.mnemonic
  label : i.mnemonic.format = .j → ∀ n, i.operands = [.label n] →
    ∃ a, lookupSymbol t n = some a ∧ a ≤ 4095 ∧ i'.operands = [.imm12 (BitVec.ofNat 16 a)]
  other : (i.mnemonic.format ≠ .j ∨ ∀ n, i.operands ≠ [.label n]) → i' = i

theorem resolved_self {t : SymbolTable} {i : Instr} (h : i.mnemonic.format = .j → ∀ n, i.operands ≠ [.label n]) :
    Resolved t i i :=
  ⟨rfl, fun hj n hn => absurd hn (h hj n), fun _ => rfl⟩

/-- A target resolves to a label's address, or is no label and stays. -/
theorem resolveTarget_cases {t : SymbolTable} {imm o : Operand} (h : resolveTarget t imm = .ok o) :
    (∃ n a, imm = .label n ∧ lookupSymbol t n = some a ∧ a ≤ 4095 ∧ o = .imm12 (BitVec.ofNat 16 a)) ∨
    (o = imm ∧ ∀ n, imm ≠ .label n) := by
  cases imm with
  | label n =>
    simp only [resolveTarget] at h
    split at h
    · cases h
    next a ha =>
      split at h
      next hle =>
        cases h
        exact .inl ⟨n, a, rfl, ha, hle, rfl⟩
      · cases h
  | reg _ | imm8 _ | imm12 _ =>
    cases h
    exact .inr ⟨rfl, by simp⟩

/-- A branch resolves with its target. -/
theorem resolved_branch {t : SymbolTable} {mk : Operand → Instr} (hops : ∀ o, (mk o).operands = [o])
    (hm : ∀ o o', (mk o).mnemonic = (mk o').mnemonic) (hj : ∀ o, (mk o).mnemonic.format = .j) {imm : Operand}
    {i' : Instr} (h : (resolveTarget t imm).map mk = .ok i') : Resolved t (mk imm) i' := by
  cases htarget : resolveTarget t imm with
  | error e => simp [htarget, Except.map] at h
  | ok o =>
    obtain rfl : mk o = i' := by simpa [htarget, Except.map] using h
    rcases resolveTarget_cases htarget with ⟨n, a, rfl, hlookup, hle, rfl⟩ | ⟨rfl, hno⟩
    · refine ⟨hm _ _, fun _ m hlabel => ?_, fun hno => ?_⟩
      · obtain rfl : n = m := by simpa [hops] using hlabel
        exact ⟨a, hlookup, hle, hops _⟩
      · exact absurd (hops _) (hno.resolve_left (· (hj _)) n)
    · exact resolved_self fun _ n hn => hno n (by simpa [hops] using hn)

/-- Pass 2 resolves an instruction or fails. -/
theorem resolved_of_resolveInstr {t : SymbolTable} {i i' : Instr} (h : resolveInstr t i = .ok i') :
    Resolved t i i' := by
  cases i with
  | jmp imm => exact resolved_branch (fun _ => rfl) (fun _ _ => rfl) (fun _ => rfl) h
  | bz imm => exact resolved_branch (fun _ => rfl) (fun _ _ => rfl) (fun _ => rfl) h
  | bnz imm => exact resolved_branch (fun _ => rfl) (fun _ _ => rfl) (fun _ => rfl) h
  | _ =>
    cases h
    exact resolved_self fun hj => by cases hj

/-! ## The pass -/

/-- Where pass 2 succeeds, the program holds instructions only, and they are resolved one for one. -/
theorem forall₂_of_replaceSymbols {t : SymbolTable} {p : List SourceInstr} {out : List Instr}
    (h : replaceSymbols t p = .ok out) :
    List.Forall₂ (fun x i' => ∃ i, x = .instr i ∧ Resolved t i i') p out := by
  induction p generalizing out with
  | nil => cases h; exact .nil
  | cons x p ih =>
    cases x with
    | label n => cases h
    | instr i =>
      unfold replaceSymbols at h
      split at h
      · cases h
      next i' hi =>
        split at h
        · cases h
        next rest hrest =>
          cases h
          exact .cons ⟨i, rfl, resolved_of_resolveInstr hi⟩ (ih hrest)

/-- An item of the program that pass 2 cannot resolve makes it fail. -/
theorem replaceSymbols_fails {t : SymbolTable} {p : List SourceInstr} {x : SourceInstr} (hx : x ∈ p)
    (h : ∀ i i', x = .instr i → ¬ Resolved t i i') : ∃ e, replaceSymbols t p = .error e := by
  cases hp : replaceSymbols t p with
  | error e => exact ⟨e, rfl⟩
  | ok out =>
    obtain ⟨hlen, hget⟩ := List.forall₂_iff_get.mp (forall₂_of_replaceSymbols hp)
    obtain ⟨k, hk, rfl⟩ := List.mem_iff_getElem.mp hx
    obtain ⟨i, hi, hresolved⟩ := hget k hk (hlen ▸ hk)
    exact absurd hresolved (h i _ hi)

/-- Settles O51: pass 2 resolves the program's items one for one, and neither a Label nor a branch to a label without a
12-bit address resolves. -/
theorem branchLabelsBecomeTheirAddresses : Obligations.BranchLabelsBecomeTheirAddresses := by
  unfold Obligations.BranchLabelsBecomeTheirAddresses
  refine fun t p => ⟨fun out h => ?_, fun n hn => ?_, fun i n hi hj hlabel hbad => ?_⟩
  · obtain ⟨hlen, hget⟩ := List.forall₂_iff_get.mp (forall₂_of_replaceSymbols h)
    refine ⟨hlen.symm, fun k i' hk => ?_⟩
    obtain ⟨hkout, rfl⟩ := List.getElem?_eq_some_iff.mp hk
    obtain ⟨i, hi, hm, hl, ho⟩ := hget k (hlen ▸ hkout) hkout
    exact ⟨i, List.getElem?_eq_some_iff.mpr ⟨hlen ▸ hkout, hi⟩, hm, hl, ho⟩
  · exact replaceSymbols_fails hn (by simp)
  · refine replaceSymbols_fails hi ?_
    rintro _ i' ⟨⟩ hresolved
    obtain ⟨a, ha, hle, -⟩ := hresolved.label hj n hlabel
    exact absurd (hbad a ha) (Nat.not_lt.mpr hle)

end Sys2Proof.Machine
end

section
/-! PROOFS. What `compile` gives (30_encoding.md rules R73 to R83): the parser puts an operand of the required kind into each
slot, or a label into the slot of a branch, and pass 2 replaces the labels. -/

namespace Sys2Proof.Machine

/-! ## Operands -/

theorem isReg_of_parseReg {text : List Char} {o : Operand} (h : parseReg text = .ok o) : o.isReg = true := by
  unfold parseReg at h
  split at h
  · split at h
    · cases h
    · split at h <;> cases h
      rfl
  · cases h

theorem isImm8_of_parseImm8 {text : List Char} {o : Operand} (h : parseImm8 text = .ok o) : o.isImm8 = true := by
  unfold parseImm8 at h
  split at h
  · cases h
  · split at h <;> cases h
    rfl

/-- A branch target is a label, or a 12-bit immediate in range. -/
theorem parseTarget_cases {text : List Char} {o : Operand} (h : parseTarget text = .ok o) :
    (∃ n, o = .label n) ∨ (∃ t, o = .imm12 t ∧ t.toNat ≤ 4095) := by
  unfold parseTarget at h
  split at h
  · cases h
    exact .inl ⟨_, rfl⟩
  · split at h
    · cases h
    next n _ =>
      split at h <;> cases h
      refine .inr ⟨_, rfl, ?_⟩
      rw [BitVec.toNat_ofNat]
      omega

/-! ## Instructions -/

/-- Well-shaped, and every 12-bit immediate in range. -/
structure Assembled (i : Instr) : Prop where
  wellShaped : i.wellShaped = true
  inRange : ∀ t : BitVec 16, Operand.imm12 t ∈ i.operands → t.toNat ≤ 4095

/-- What the parser makes: an assembled instruction, or a branch to a label. -/
def Parsed (i : Instr) : Prop :=
  Assembled i ∨ (i.mnemonic.format = .j ∧ ∃ n, i.operands = [.label n])

/-- A well-shaped instruction that is no transfer has no 12-bit immediate. -/
theorem assembled_of_format {i : Instr} (hshape : i.wellShaped = true) (hj : i.mnemonic.format ≠ .j) : Assembled i :=
  ⟨hshape, fun _ h => absurd (format_of_imm12_mem hshape h) hj⟩

/-- A transfer with a 12-bit immediate in range is assembled. -/
theorem assembled_of_imm12 {i : Instr} {t : BitVec 16} (hj : i.mnemonic.format = .j) (hops : i.operands = [.imm12 t])
    (ht : t.toNat ≤ 4095) : Assembled i := by
  refine ⟨?_, fun u hu => ?_⟩
  · cases i with
    | jmp | bz | bnz =>
      cases hops
      rfl
    | _ => cases hj
  · rw [hops, List.mem_singleton] at hu
    cases hu
    exact ht

theorem parseN_ok {i i' : Instr} {ops : List (List Char)} (h : parseN i ops = .ok i') : i' = i := by
  unfold parseN at h
  split at h <;> cases h
  rfl

/-- A value of two computations in sequence comes from a value of the first. -/
theorem bind_eq_ok {ε α β : Type} {x : Except ε α} {f : α → Except ε β} {b : β} (h : x >>= f = .ok b) :
    ∃ a, x = .ok a ∧ f a = .ok b := by
  cases x with
  | error e => cases h
  | ok a => exact ⟨a, rfl, h⟩

theorem parseRR_ok {mk : Operand → Operand → Instr} {ops : List (List Char)} {i : Instr} (h : parseRR mk ops = .ok i) :
    ∃ d a, i = mk d a ∧ d.isReg = true ∧ a.isReg = true := by
  unfold parseRR at h
  split at h
  · obtain ⟨d, hd, h⟩ := bind_eq_ok h
    obtain ⟨a, ha, h⟩ := bind_eq_ok h
    cases h
    exact ⟨d, a, rfl, isReg_of_parseReg hd, isReg_of_parseReg ha⟩
  · cases h

theorem parseRRR_ok {mk : Operand → Operand → Operand → Instr} {ops : List (List Char)} {i : Instr}
    (h : parseRRR mk ops = .ok i) : ∃ d a b, i = mk d a b ∧ d.isReg = true ∧ a.isReg = true ∧ b.isReg = true := by
  unfold parseRRR at h
  split at h
  · obtain ⟨d, hd, h⟩ := bind_eq_ok h
    obtain ⟨a, ha, h⟩ := bind_eq_ok h
    obtain ⟨b, hb, h⟩ := bind_eq_ok h
    cases h
    exact ⟨d, a, b, rfl, isReg_of_parseReg hd, isReg_of_parseReg ha, isReg_of_parseReg hb⟩
  · cases h

theorem parseI_ok {mk : Operand → Operand → Operand → Instr} {ops : List (List Char)} {i : Instr}
    (h : parseI mk ops = .ok i) : ∃ d a k, i = mk d a k ∧ d.isReg = true ∧ a.isReg = true ∧ k.isImm8 = true := by
  unfold parseI at h
  split at h
  · obtain ⟨d, hd, h⟩ := bind_eq_ok h
    obtain ⟨a, ha, h⟩ := bind_eq_ok h
    obtain ⟨k, hk, h⟩ := bind_eq_ok h
    cases h
    exact ⟨d, a, k, rfl, isReg_of_parseReg hd, isReg_of_parseReg ha, isImm8_of_parseImm8 hk⟩
  · cases h

theorem parseJ_ok {mk : Operand → Instr} {ops : List (List Char)} {i : Instr} (h : parseJ mk ops = .ok i) :
    ∃ o, i = mk o ∧ ((∃ n, o = .label n) ∨ (∃ t, o = .imm12 t ∧ t.toNat ≤ 4095)) := by
  unfold parseJ at h
  split at h
  · obtain ⟨o, ho, h⟩ := bind_eq_ok h
    cases h
    exact ⟨o, rfl, parseTarget_cases ho⟩
  · cases h

/-- The parser of each format fills the slots with operands of the required kinds (the table of R76). -/
theorem parsed_of_parseOperands {m : Mnemonic} {ops : List (List Char)} {i : Instr} (h : parseOperands m ops = .ok i) :
    Parsed i := by
  cases m with
  | halt | nop =>
    cases parseN_ok h
    exact .inl (assembled_of_format rfl (by simp [Instr.mnemonic, Mnemonic.format]))
  | mv | not =>
    obtain ⟨d, a, rfl, hd, ha⟩ := parseRR_ok h
    exact .inl (assembled_of_format (by simp [Instr.wellShaped, hd, ha]) (by simp [Instr.mnemonic, Mnemonic.format]))
  | add | sub | and | or | xor =>
    obtain ⟨d, a, b, rfl, hd, ha, hb⟩ := parseRRR_ok h
    exact .inl (assembled_of_format (by simp [Instr.wellShaped, hd, ha, hb])
      (by simp [Instr.mnemonic, Mnemonic.format]))
  | addi | andi | ori | xori =>
    obtain ⟨d, a, k, rfl, hd, ha, hk⟩ := parseI_ok h
    exact .inl (assembled_of_format (by simp [Instr.wellShaped, hd, ha, hk])
      (by simp [Instr.mnemonic, Mnemonic.format]))
  | jmp | bz | bnz =>
    obtain ⟨o, rfl, ⟨n, rfl⟩ | ⟨t, rfl, ht⟩⟩ := parseJ_ok h
    · exact .inr ⟨rfl, n, rfl⟩
    · exact .inl (assembled_of_imm12 rfl rfl ht)

/-! ## Lines and programs -/

theorem parsed_of_parseLine {line : List Char} {i : Instr} (h : parseLine line = .ok (some (.instr i))) : Parsed i := by
  unfold parseLine at h
  dsimp only at h
  split at h
  · cases h
  · split at h
    · split at h <;> cases h
    · split at h
      · cases h
      next hline =>
        cases h
        unfold parseInstrLine at hline
        split at hline
        · cases hline
        · exact parsed_of_parseOperands hline

theorem parsed_of_parseLinesFrom {n : Nat} {lines : List (List Char)} {p : List SourceInstr}
    (h : parseLinesFrom n lines = .ok p) {i : Instr} (hi : .instr i ∈ p) : Parsed i := by
  induction lines generalizing n p with
  | nil =>
    cases h
    cases hi
  | cons line lines ih =>
    unfold parseLinesFrom at h
    split at h
    · cases h
    next item hline =>
      split at h
      · cases h
      next rest hrest =>
        cases h
        rcases List.mem_append.mp hi with hitem | hi
        · exact parsed_of_parseLine (Option.mem_toList.mp hitem ▸ hline)
        · exact ih hrest hi

/-- Pass 1 adds nothing to the program. -/
theorem mem_of_stripSymbols {p out : List SourceInstr} {t : SymbolTable} (h : stripSymbols p = .ok (out, t))
    {x : SourceInstr} (hx : x ∈ out) : x ∈ p := by
  by_cases hnodup : (labelNames p).Nodup
  · cases (stripFrom_ok (t := []) hnodup 0).symm.trans h
    exact List.mem_of_mem_filter hx
  · obtain ⟨n, hn, -⟩ := stripFrom_duplicate (t := []) List.nodup_nil hnodup 0
    cases hn.symm.trans h

/-- Pass 2 assembles what the parser made. -/
theorem assembled_of_resolved {t : SymbolTable} {i i' : Instr} (hi : Parsed i) (h : Resolved t i i') :
    Assembled i' := by
  rcases hi with hassembled | ⟨hj, n, hlabel⟩
  · have hno : ∀ n, i.operands ≠ [.label n] := fun n hn => by
      simpa [Operand.isReg, Operand.isImm8, Operand.isImm12] using
        operand_kinds_of_wellShaped hassembled.wellShaped (o := .label n) (by simp [hn])
    rwa [h.other (.inr hno)]
  · obtain ⟨a, -, hle, hops⟩ := h.label hj n hlabel
    refine assembled_of_imm12 (h.mnemonic ▸ hj) hops ?_
    rw [BitVec.toNat_ofNat]
    omega

/-- Every instruction of a program that compiles is assembled. -/
theorem assembled_of_compile {source : String} {p : List Instr} (h : compile source = .ok p) {i : Instr} (hi : i ∈ p) :
    Assembled i := by
  unfold compile at h
  split at h
  · cases h
  next parsed hparse =>
    split at h
    · cases h
    next out hresolve =>
      cases h
      unfold resolve at hresolve
      split at hresolve
      · cases hresolve
      next stripped table hstrip =>
        obtain ⟨hlen, hget⟩ := List.forall₂_iff_get.mp (forall₂_of_replaceSymbols hresolve)
        obtain ⟨k, hk, rfl⟩ := List.mem_iff_getElem.mp hi
        obtain ⟨j, hj, hresolved⟩ := hget k (hlen ▸ hk) hk
        have hmem : SourceInstr.instr j ∈ stripped := hj ▸ List.get_mem _ _
        exact assembled_of_resolved (parsed_of_parseLinesFrom hparse (mem_of_stripSymbols hstrip hmem)) hresolved

/-! ## Ranges -/

/-- The step checks every register index that stands in a slot of a well-shaped instruction. -/
theorem mem_checkedRegisters_of_reg_mem {i : Instr} {n : Byte} (hshape : i.wellShaped = true)
    (h : .reg n ∈ i.operands) : n ∈ i.checkedRegisters := by
  cases i with
  | halt | nop => cases h
  | jmp | bz | bnz =>
    cases List.mem_singleton.mp h
    cases hshape
  | mv | not =>
    simp only [Instr.operands, List.mem_cons, List.not_mem_nil, or_false] at h
    simp only [Instr.checkedRegisters, List.mem_append, Operand.mem_indices]
    exact h.symm
  | add | sub | and | or | xor =>
    simp only [Instr.operands, List.mem_cons, List.not_mem_nil, or_false] at h
    simp only [Instr.checkedRegisters, List.mem_append, Operand.mem_indices]
    tauto
  | addi d a k | andi d a k | ori d a k | xori d a k =>
    simp only [Instr.wellShaped, Bool.and_eq_true] at hshape
    have hk : .reg n ≠ k := by
      rintro rfl
      cases hshape.2
    simp only [Instr.operands, List.mem_cons, List.not_mem_nil, or_false, hk] at h
    simp only [Instr.checkedRegisters, List.mem_append, Operand.mem_indices]
    exact h.symm

/-- With its register indices in range, an assembled instruction is well-formed. -/
theorem Assembled.wellFormed {i : Instr} (h : Assembled i) (hregs : ∀ n ∈ i.checkedRegisters, n.toNat ≤ 15) :
    i.wellFormed = true := by
  rw [Instr.wellFormed, h.wellShaped, Bool.true_and, List.all_eq_true]
  intro o ho
  rcases operand_kinds_of_wellShaped h.wellShaped ho with hreg | himm8 | ⟨himm12, -⟩
  · obtain ⟨n, rfl⟩ := Operand.eq_reg hreg
    exact decide_eq_true (hregs n (mem_checkedRegisters_of_reg_mem h.wellShaped ho))
  · obtain ⟨k, rfl⟩ := Operand.eq_imm8 himm8
    rfl
  · cases o with
    | imm12 t => exact decide_eq_true (h.inRange t ho)
    | reg _ | imm8 _ | label _ => cases himm12

/-- Settles O52: the parser fills the slots with operands of the required kinds but for the labels of branches, and pass 2
replaces those. -/
theorem compiledProgramsAreResolvedAndWellShaped : Obligations.CompiledProgramsAreResolvedAndWellShaped := by
  unfold Obligations.CompiledProgramsAreResolvedAndWellShaped
  intro source p h i hi
  have hassembled := assembled_of_compile h hi
  exact ⟨hassembled.wellShaped, hassembled.inRange, hassembled.wellFormed⟩

end Sys2Proof.Machine
end
